-- ==== Sys2Proof/Word.lean ====
section
/-! DEFINITION. The bit-vector types of CORE: words, bytes and register indices
(spec/00_scope.md R7, R9, R10, R19; spec/10_state.md R20). -/

namespace Sys2Proof

/-- A 32-bit value: a register's contents, an address, a PC value or an instruction word (R7, R19).
`s(v)` of R10 is `v.toInt` and `u(v)` is `v.toNat`. -/
abbrev Word := BitVec 32

/-- One byte of memory or of console output (R7, R32). -/
abbrev Byte := BitVec 8

/-- The 5-bit field that names one of the 32 general registers (R20, R77). -/
abbrev RegIdx := BitVec 5

end Sys2Proof
end

