-- ==== Sys2Proof/Config.lean ====
section
/-! DEFINITION. What an implementation fixes (the parameters of spec/00_scope.md R8) and the values
the spec leaves open. The parameters a step looks at are plain data, so that every setting of them
is a machine of this model; the open texts and the arbitrary value of `draw32()` are constants with
no body, so that nothing can be proved about which values they are. -/

namespace Sys2Proof.Config

/-- X0_POLICY (R8, R21; spec/92_eei_decisions.md D5). -/
inductive X0Policy where
  /-- x0 is an ordinary register. -/
  | ordinary
  /-- Writes to x0 are dropped and x0 is 0 at launch. -/
  | discard
  deriving DecidableEq, Repr

/-- FETCH_MISALIGNED (R8, R47; D2). -/
inductive FetchMisaligned where
  /-- A fetch at a pc that is no multiple of 4 raises MisalignedFetch. -/
  | fault
  /-- The four bytes at pc are fetched whatever pc's alignment. -/
  | permit
  deriving DecidableEq, Repr

/-- MULH_MODE (R8, R112; D12). -/
inductive MulhMode where
  /-- The exact signed product, shifted right by 31. -/
  | wide64
  /-- The low 32 bits of the product, shifted right arithmetically by 31. -/
  | narrow32
  deriving DecidableEq, Repr

/-- DIV_CORNER (R8, R113, R114; D13). -/
inductive DivCorner where
  /-- The two corner cases of DIV and REM raise DivideFault. -/
  | fault
  /-- The two corner cases give the standard RISC-V values. -/
  | riscv
  deriving DecidableEq, Repr

/-- OPIMM_INVALID_POLICY (R8, R140, R222; D14). CONTINUE is spelled `goOn`. -/
inductive OpimmInvalidPolicy where
  /-- CONTINUE: report, draw a value into rd, go on. -/
  | goOn
  /-- FATAL: raise InvalidInstruction. -/
  | fatal
  deriving DecidableEq, Repr

/-- LSGT_COMPARE (R8, R116; D16). -/
inductive LsgtCompare where
  /-- Both sides are read signed. -/
  | signed
  /-- Both sides are read unsigned. -/
  | unsigned
  deriving DecidableEq, Repr

/-- The parameters of R8 that a step looks at (ENTRY_PC, INIT_REGS and INIT_MEM are arguments of the
launch, `Machine.State.launch`). -/
structure Params where
  /-- MEM_SIZE, the number N of bytes of memory. -/
  memSize : Nat
  x0Policy : X0Policy
  fetchMisaligned : FetchMisaligned
  mulhMode : MulhMode
  divCorner : DivCorner
  opimmInvalid : OpimmInvalidPolicy
  /-- STRICT_FUNCT7. -/
  strictFunct7 : Bool
  lsgtCompare : LsgtCompare
  /-- EXIT_BANNER, the bytes syscall 10 prints. -/
  exitBanner : List Byte
  /-- FAIL_STATUS, the exit status of a failed run. -/
  failStatus : Int
  deriving DecidableEq, Repr

/-- The ranges R8 gives: 1 ≤ N ≤ 2^32, and FAIL_STATUS is not 0. -/
abbrev Params.wf (p : Params) : Prop :=
  1 ≤ p.memSize ∧ p.memSize ≤ 2 ^ 32 ∧ p.failStatus ≠ 0

/-- The arbitrary 32-bit value of the n-th `draw32()` of a run (R15, R140, R256). Log entry 7. -/
opaque draw32 : Nat → Word

/-- The bytes of the exit banner, which the spec leaves open (R204, D22). Log entry 6. -/
opaque exitBanner : List Byte

/-- Some integer, from which FAIL_STATUS is made. Log entry 6. -/
opaque failSeed : Int

/-- Some nonzero integer: every nonzero integer is this for exactly one seed (R31, D23). Log entry 6. -/
def failStatus : Int :=
  match failSeed with
  | .ofNat n => .ofNat (n + 1)
  | .negSucc n => .negSucc n

/-- What a byte of memory that the memory list does not name reads as. DESIGN CHOICE, log entry 4. -/
def unlistedByte : Byte := 0

/-- The defaults of R8. MEM_SIZE has none: 2^32, the whole address space, is the model's choice
(DESIGN CHOICE, log entry 3). -/
def defaults : Params where
  memSize := 2 ^ 32
  x0Policy := .ordinary
  fetchMisaligned := .fault
  mulhMode := .wide64
  divCorner := .fault
  opimmInvalid := .goOn
  strictFunct7 := false
  lsgtCompare := .signed
  exitBanner := exitBanner
  failStatus := failStatus

end Sys2Proof.Config
end

