-- ==== Sys2Proof/Machine/Flags.lean ====
section
/-! DEFINITION. CORE has no flags or condition codes: a comparison delivers its result in a general
register or in the next PC (spec/10_state.md R27). This file holds those comparisons. -/

namespace Sys2Proof.Machine

/-- The result of SLT and SLTI: 1 if s(a) < s(b), else 0 (R105, R133). -/
def setLess (a b : Word) : Word := if a.toInt < b.toInt then 1 else 0

/-- LSGT's condition: the register is greater than the loaded word (R116). -/
def lsgtHolds (mode : Config.LsgtCompare) (a m : Word) : Bool :=
  match mode with
  | .signed => decide (m.toInt < a.toInt)
  | .unsigned => decide (m.toNat < a.toNat)

/-- BEQ's condition (R173). -/
def branchEq (a b : Word) : Bool := a == b

/-- BNE's condition (R174). -/
def branchNe (a b : Word) : Bool := a != b

end Sys2Proof.Machine
end

