-- ==== Sys2Proof/Syntax.lean ====
section
/-! DEFINITION. The instructions of CORE: one constructor per row of spec/opcode_table.json.
Fields are the raw bit patterns of R68; sign interpretation happens at the point of use. A field the
hardware does not examine is kept, so that an instruction determines its word (R88) and a
diagnostic can record that word (R221). Log entry 12. -/

namespace Sys2Proof

/-- One constructor per row of spec/opcode_table.json, in the table's order. -/
inductive Instr where
  /-- R102 -/
  | add (rd rs1 rs2 : RegIdx)
  /-- R103 -/
  | sub (rd rs1 rs2 : RegIdx)
  /-- R104 -/
  | sll (rd rs1 rs2 : RegIdx)
  /-- R105; funct7 is not examined unless STRICT_FUNCT7. -/
  | slt (rd rs1 rs2 : RegIdx) (funct7 : BitVec 7)
  /-- R106 -/
  | xor (rd rs1 rs2 : RegIdx)
  /-- R107 -/
  | srl (rd rs1 rs2 : RegIdx)
  /-- R108 -/
  | sra (rd rs1 rs2 : RegIdx)
  /-- R109 -/
  | or (rd rs1 rs2 : RegIdx)
  /-- R110; funct7 is not examined unless STRICT_FUNCT7. -/
  | and (rd rs1 rs2 : RegIdx) (funct7 : BitVec 7)
  /-- R111 -/
  | mul (rd rs1 rs2 : RegIdx)
  /-- R112 -/
  | mulh (rd rs1 rs2 : RegIdx)
  /-- R113 -/
  | div (rd rs1 rs2 : RegIdx)
  /-- R114 -/
  | rem (rd rs1 rs2 : RegIdx)
  /-- R116; funct3 and funct7 are not examined (R79). -/
  | lsgt (rd rs1 rs2 : RegIdx) (funct3 : BitVec 3) (funct7 : BitVec 7)
  /-- R131 -/
  | addi (rd rs1 : RegIdx) (imm : BitVec 12)
  /-- R132; `upper` is imm[11:5], not examined. -/
  | slli (rd rs1 : RegIdx) (shamt : BitVec 5) (upper : BitVec 7)
  /-- R133 -/
  | slti (rd rs1 : RegIdx) (imm : BitVec 12)
  /-- R140: opcode 0x13 with funct3 = 0x3. -/
  | opimmInvalid (rd rs1 : RegIdx) (imm : BitVec 12)
  /-- R134 -/
  | xori (rd rs1 : RegIdx) (imm : BitVec 12)
  /-- R136; `upper` is imm[11:5], any value but 0x20 (R135). -/
  | srli (rd rs1 : RegIdx) (shamt : BitVec 5) (upper : BitVec 7)
  /-- R137: imm[11:5] = 0x20. -/
  | srai (rd rs1 : RegIdx) (shamt : BitVec 5)
  /-- R138 -/
  | ori (rd rs1 : RegIdx) (imm : BitVec 12)
  /-- R139 -/
  | andi (rd rs1 : RegIdx) (imm : BitVec 12)
  /-- R151 -/
  | lb (rd rs1 : RegIdx) (imm : BitVec 12)
  /-- R152 -/
  | lh (rd rs1 : RegIdx) (imm : BitVec 12)
  /-- R153 -/
  | lw (rd rs1 : RegIdx) (imm : BitVec 12)
  /-- R156 -/
  | sb (rs1 rs2 : RegIdx) (immHigh : BitVec 7) (immLow : BitVec 5)
  /-- R157 -/
  | sh (rs1 rs2 : RegIdx) (immHigh : BitVec 7) (immLow : BitVec 5)
  /-- R158 -/
  | sw (rs1 rs2 : RegIdx) (immHigh : BitVec 7) (immLow : BitVec 5)
  /-- R173 -/
  | beq (rs1 rs2 : RegIdx) (immHigh : BitVec 7) (immLow : BitVec 5)
  /-- R174 -/
  | bne (rs1 rs2 : RegIdx) (immHigh : BitVec 7) (immLow : BitVec 5)
  /-- R172; `imm` is the scrambled field w[31:12] of R66. -/
  | jal (rd : RegIdx) (imm : BitVec 20)
  /-- R176: opcode 0x67, decoded as I-format, no handler. -/
  | jalrUnhandled (rd rs1 : RegIdx) (funct3 : BitVec 3) (imm : BitVec 12)
  /-- R190 -/
  | lui (rd : RegIdx) (imm : BitVec 20)
  /-- R192: opcode 0x17, decoded as U-format, no handler. -/
  | auipcUnhandled (rd : RegIdx) (imm : BitVec 20)
  /-- R200; no field is examined (R82). -/
  | ecall (rd rs1 : RegIdx) (funct3 : BitVec 3) (imm : BitVec 12)
  deriving DecidableEq, Repr

end Sys2Proof
end

