-- ==== Sys2Proof/WellFormed.lean ====
section
/-! DEFINITION. Which instruction terms stand for an instruction word. Every operand field is a bit
vector of its field's width, so only two checks are left: SRLI's imm[11:5] is not SRAI's selector
(R135), and under STRICT_FUNCT7 = TRUE the funct7 of SLT and AND is 0x00 (R78). -/

namespace Sys2Proof

/-- The term is the reading of some word under the given STRICT_FUNCT7 (R78, R135). -/
def Instr.wellFormed (strict : Bool) : Instr → Bool
  | .slt _ _ _ funct7 => !strict || funct7 == 0x00#7
  | .and _ _ _ funct7 => !strict || funct7 == 0x00#7
  | .srli _ _ _ upper => upper != 0x20#7
  | .add .. => true
  | .sub .. => true
  | .sll .. => true
  | .xor .. => true
  | .srl .. => true
  | .sra .. => true
  | .or .. => true
  | .mul .. => true
  | .mulh .. => true
  | .div .. => true
  | .rem .. => true
  | .lsgt .. => true
  | .addi .. => true
  | .slli .. => true
  | .slti .. => true
  | .opimmInvalid .. => true
  | .xori .. => true
  | .srai .. => true
  | .ori .. => true
  | .andi .. => true
  | .lb .. => true
  | .lh .. => true
  | .lw .. => true
  | .sb .. => true
  | .sh .. => true
  | .sw .. => true
  | .beq .. => true
  | .bne .. => true
  | .jal .. => true
  | .jalrUnhandled .. => true
  | .lui .. => true
  | .auipcUnhandled .. => true
  | .ecall .. => true

end Sys2Proof
end

