-- ==== Sys2Proof/Decode.lean ====
section
/-! DEFINITION. From an instruction word to an instruction and back (spec/30_encoding.md R60 to R83,
R88). Decoding is total: a word that is no instruction is rejected by name. -/

namespace Sys2Proof

/-! ## Fields (R61 to R68) -/

/-- The opcode, w[6:0] (R61). -/
def opcodeOf (w : Word) : BitVec 7 := w.extractLsb' 0 7

/-- rd, w[11:7]; the same bits are imm_low in the S- and B-formats (R68). -/
def rdOf (w : Word) : RegIdx := w.extractLsb' 7 5

/-- funct3, w[14:12] (R68). -/
def funct3Of (w : Word) : BitVec 3 := w.extractLsb' 12 3

/-- rs1, w[19:15] (R68). -/
def rs1Of (w : Word) : RegIdx := w.extractLsb' 15 5

/-- rs2, w[24:20]; the same bits are the shift amount of the I-format shifts (R68, R72). -/
def rs2Of (w : Word) : RegIdx := w.extractLsb' 20 5

/-- funct7, w[31:25]; the same bits are imm_high in the S- and B-formats and imm[11:5] in the
I-format (R68, R72). -/
def funct7Of (w : Word) : BitVec 7 := w.extractLsb' 25 7

/-- The I-format immediate field, w[31:20] (R68). -/
def immIOf (w : Word) : BitVec 12 := w.extractLsb' 20 12

/-- The U- and J-format immediate field, w[31:12] (R68). -/
def immUOf (w : Word) : BitVec 20 := w.extractLsb' 12 20

/-- The R-format word of its fields (R62); the S- and B-formats have the same layout with imm_high
for funct7 and imm_low for rd (R64, R67). -/
def packR (funct7 : BitVec 7) (rs2 rs1 : RegIdx) (funct3 : BitVec 3) (rd : RegIdx)
    (opcode : BitVec 7) : Word :=
  funct7 ++ rs2 ++ rs1 ++ funct3 ++ rd ++ opcode

/-- The I-format word of its fields (R63). -/
def packI (imm : BitVec 12) (rs1 : RegIdx) (funct3 : BitVec 3) (rd : RegIdx)
    (opcode : BitVec 7) : Word :=
  imm ++ rs1 ++ funct3 ++ rd ++ opcode

/-- The U- and J-format word of its fields (R65, R66). -/
def packU (imm : BitVec 20) (rd : RegIdx) (opcode : BitVec 7) : Word :=
  imm ++ rd ++ opcode

/-! ## Decoding (R69, R70, R78 to R82) -/

/-- Why a word is no instruction. -/
inductive Reject where
  /-- w[6:0] is none of the eleven opcodes (R70). -/
  | unknownOpcode (w : Word)
  /-- An unmapped funct3 or funct7 within a recognised opcode (R115, R154, R159, R175). -/
  | invalidInstruction (w : Word)
  deriving DecidableEq, Repr

/-- Opcode 0x33, by funct3 and funct7 (R78). -/
def decodeOp (strict : Bool) (w : Word) : Except Reject Instr :=
  let f3 := funct3Of w
  let f7 := funct7Of w
  let rd := rdOf w
  let rs1 := rs1Of w
  let rs2 := rs2Of w
  if f3 = 0x0#3 then
    if f7 = 0x00#7 then .ok (.add rd rs1 rs2)
    else if f7 = 0x01#7 then .ok (.mul rd rs1 rs2)
    else if f7 = 0x20#7 then .ok (.sub rd rs1 rs2)
    else .error (.invalidInstruction w)
  else if f3 = 0x1#3 then
    if f7 = 0x00#7 then .ok (.sll rd rs1 rs2)
    else if f7 = 0x01#7 then .ok (.mulh rd rs1 rs2)
    else .error (.invalidInstruction w)
  else if f3 = 0x2#3 then
    if f7 ≠ 0x00#7 ∧ strict = true then .error (.invalidInstruction w)
    else .ok (.slt rd rs1 rs2 f7)
  else if f3 = 0x4#3 then
    if f7 = 0x00#7 then .ok (.xor rd rs1 rs2)
    else if f7 = 0x01#7 then .ok (.div rd rs1 rs2)
    else .error (.invalidInstruction w)
  else if f3 = 0x5#3 then
    if f7 = 0x00#7 then .ok (.srl rd rs1 rs2)
    else if f7 = 0x20#7 then .ok (.sra rd rs1 rs2)
    else .error (.invalidInstruction w)
  else if f3 = 0x6#3 then
    if f7 = 0x00#7 then .ok (.or rd rs1 rs2)
    else if f7 = 0x01#7 then .ok (.rem rd rs1 rs2)
    else .error (.invalidInstruction w)
  else if f3 = 0x7#3 then
    if f7 ≠ 0x00#7 ∧ strict = true then .error (.invalidInstruction w)
    else .ok (.and rd rs1 rs2 f7)
  else .error (.invalidInstruction w)

/-- Opcode 0x13, by funct3 (R80, R135). -/
def decodeOpImm (w : Word) : Except Reject Instr :=
  let f3 := funct3Of w
  let rd := rdOf w
  let rs1 := rs1Of w
  let imm := immIOf w
  if f3 = 0x0#3 then .ok (.addi rd rs1 imm)
  else if f3 = 0x1#3 then .ok (.slli rd rs1 (rs2Of w) (funct7Of w))
  else if f3 = 0x2#3 then .ok (.slti rd rs1 imm)
  else if f3 = 0x3#3 then .ok (.opimmInvalid rd rs1 imm)
  else if f3 = 0x4#3 then .ok (.xori rd rs1 imm)
  else if f3 = 0x5#3 then
    if funct7Of w = 0x20#7 then .ok (.srai rd rs1 (rs2Of w))
    else .ok (.srli rd rs1 (rs2Of w) (funct7Of w))
  else if f3 = 0x6#3 then .ok (.ori rd rs1 imm)
  else .ok (.andi rd rs1 imm)

/-- Opcode 0x03, by funct3 (R81). -/
def decodeLoad (w : Word) : Except Reject Instr :=
  let f3 := funct3Of w
  if f3 = 0x0#3 then .ok (.lb (rdOf w) (rs1Of w) (immIOf w))
  else if f3 = 0x1#3 then .ok (.lh (rdOf w) (rs1Of w) (immIOf w))
  else if f3 = 0x2#3 then .ok (.lw (rdOf w) (rs1Of w) (immIOf w))
  else .error (.invalidInstruction w)

/-- Opcode 0x23, by funct3 (R81). -/
def decodeStore (w : Word) : Except Reject Instr :=
  let f3 := funct3Of w
  if f3 = 0x0#3 then .ok (.sb (rs1Of w) (rs2Of w) (funct7Of w) (rdOf w))
  else if f3 = 0x1#3 then .ok (.sh (rs1Of w) (rs2Of w) (funct7Of w) (rdOf w))
  else if f3 = 0x2#3 then .ok (.sw (rs1Of w) (rs2Of w) (funct7Of w) (rdOf w))
  else .error (.invalidInstruction w)

/-- Opcode 0x63, by funct3 (R81). -/
def decodeBranch (w : Word) : Except Reject Instr :=
  let f3 := funct3Of w
  if f3 = 0x0#3 then .ok (.beq (rs1Of w) (rs2Of w) (funct7Of w) (rdOf w))
  else if f3 = 0x1#3 then .ok (.bne (rs1Of w) (rs2Of w) (funct7Of w) (rdOf w))
  else .error (.invalidInstruction w)

/-- The instruction of a word, or the name of the reason there is none; `strict` is STRICT_FUNCT7
(R69, R70, R83). -/
def decode (strict : Bool) (w : Word) : Except Reject Instr :=
  let opc := opcodeOf w
  if opc = 0x33#7 then decodeOp strict w
  else if opc = 0x2A#7 then
    .ok (.lsgt (rdOf w) (rs1Of w) (rs2Of w) (funct3Of w) (funct7Of w))
  else if opc = 0x13#7 then decodeOpImm w
  else if opc = 0x03#7 then decodeLoad w
  else if opc = 0x23#7 then decodeStore w
  else if opc = 0x63#7 then decodeBranch w
  else if opc = 0x6F#7 then .ok (.jal (rdOf w) (immUOf w))
  else if opc = 0x67#7 then .ok (.jalrUnhandled (rdOf w) (rs1Of w) (funct3Of w) (immIOf w))
  else if opc = 0x37#7 then .ok (.lui (rdOf w) (immUOf w))
  else if opc = 0x17#7 then .ok (.auipcUnhandled (rdOf w) (immUOf w))
  else if opc = 0x73#7 then .ok (.ecall (rdOf w) (rs1Of w) (funct3Of w) (immIOf w))
  else .error (.unknownOpcode w)

/-! ## Encoding (R88) -/

/-- The word of an instruction, from the field positions of R62 to R67 and the opcode map of R78
to R82. -/
def encode : Instr → Word
  | .add rd rs1 rs2 => packR 0x00#7 rs2 rs1 0x0#3 rd 0x33#7
  | .sub rd rs1 rs2 => packR 0x20#7 rs2 rs1 0x0#3 rd 0x33#7
  | .sll rd rs1 rs2 => packR 0x00#7 rs2 rs1 0x1#3 rd 0x33#7
  | .slt rd rs1 rs2 f7 => packR f7 rs2 rs1 0x2#3 rd 0x33#7
  | .xor rd rs1 rs2 => packR 0x00#7 rs2 rs1 0x4#3 rd 0x33#7
  | .srl rd rs1 rs2 => packR 0x00#7 rs2 rs1 0x5#3 rd 0x33#7
  | .sra rd rs1 rs2 => packR 0x20#7 rs2 rs1 0x5#3 rd 0x33#7
  | .or rd rs1 rs2 => packR 0x00#7 rs2 rs1 0x6#3 rd 0x33#7
  | .and rd rs1 rs2 f7 => packR f7 rs2 rs1 0x7#3 rd 0x33#7
  | .mul rd rs1 rs2 => packR 0x01#7 rs2 rs1 0x0#3 rd 0x33#7
  | .mulh rd rs1 rs2 => packR 0x01#7 rs2 rs1 0x1#3 rd 0x33#7
  | .div rd rs1 rs2 => packR 0x01#7 rs2 rs1 0x4#3 rd 0x33#7
  | .rem rd rs1 rs2 => packR 0x01#7 rs2 rs1 0x6#3 rd 0x33#7
  | .lsgt rd rs1 rs2 f3 f7 => packR f7 rs2 rs1 f3 rd 0x2A#7
  | .addi rd rs1 imm => packI imm rs1 0x0#3 rd 0x13#7
  | .slli rd rs1 shamt upper => packR upper shamt rs1 0x1#3 rd 0x13#7
  | .slti rd rs1 imm => packI imm rs1 0x2#3 rd 0x13#7
  | .opimmInvalid rd rs1 imm => packI imm rs1 0x3#3 rd 0x13#7
  | .xori rd rs1 imm => packI imm rs1 0x4#3 rd 0x13#7
  | .srli rd rs1 shamt upper => packR upper shamt rs1 0x5#3 rd 0x13#7
  | .srai rd rs1 shamt => packR 0x20#7 shamt rs1 0x5#3 rd 0x13#7
  | .ori rd rs1 imm => packI imm rs1 0x6#3 rd 0x13#7
  | .andi rd rs1 imm => packI imm rs1 0x7#3 rd 0x13#7
  | .lb rd rs1 imm => packI imm rs1 0x0#3 rd 0x03#7
  | .lh rd rs1 imm => packI imm rs1 0x1#3 rd 0x03#7
  | .lw rd rs1 imm => packI imm rs1 0x2#3 rd 0x03#7
  | .sb rs1 rs2 hi lo => packR hi rs2 rs1 0x0#3 lo 0x23#7
  | .sh rs1 rs2 hi lo => packR hi rs2 rs1 0x1#3 lo 0x23#7
  | .sw rs1 rs2 hi lo => packR hi rs2 rs1 0x2#3 lo 0x23#7
  | .beq rs1 rs2 hi lo => packR hi rs2 rs1 0x0#3 lo 0x63#7
  | .bne rs1 rs2 hi lo => packR hi rs2 rs1 0x1#3 lo 0x63#7
  | .jal rd imm => packU imm rd 0x6F#7
  | .jalrUnhandled rd rs1 f3 imm => packI imm rs1 f3 rd 0x67#7
  | .lui rd imm => packU imm rd 0x37#7
  | .auipcUnhandled rd imm => packU imm rd 0x17#7
  | .ecall rd rs1 f3 imm => packI imm rs1 f3 rd 0x73#7

/-! ## Bytes (R7, R42, R43: little-endian) -/

/-- The word whose bytes, from the lowest address up, are b0, b1, b2, b3 (R42). -/
def wordOfBytes (b0 b1 b2 b3 : Byte) : Word := b3 ++ b2 ++ b1 ++ b0

/-- The four bytes of a word, the one for the lowest address first (R42). -/
def bytesOfWord (w : Word) : List Byte :=
  [w.extractLsb' 0 8, w.extractLsb' 8 8, w.extractLsb' 16 8, w.extractLsb' 24 8]

/-- Why a list of bytes does not begin with an instruction. -/
inductive ByteReject where
  /-- Fewer than the four bytes of a word are left (R60). -/
  | truncated (left : Nat)
  /-- The four bytes are a word that is no instruction. -/
  | word (r : Reject)
  deriving DecidableEq, Repr

/-- The instruction at the front of a list of bytes, and the bytes after it (R60). -/
def decodeBytes (strict : Bool) : List Byte → Except ByteReject (Instr × List Byte)
  | b0 :: b1 :: b2 :: b3 :: rest =>
    match decode strict (wordOfBytes b0 b1 b2 b3) with
    | .ok i => .ok (i, rest)
    | .error r => .error (.word r)
  | short => .error (.truncated short.length)

/-- The bytes of a table row's bits, as CORE stores them: the word whose low nbits are w's and whose
other bits are 0, little-endian. -/
def tableBytes (nbits w : Nat) : List Byte := bytesOfWord (BitVec.ofNat 32 (w % 2 ^ nbits))

/-- The instruction the decoder reads from a table row's bits, under the default STRICT_FUNCT7. -/
def decodeTableWord (nbits w : Nat) : Option Instr :=
  match decodeBytes false (tableBytes nbits w) with
  | .ok (i, _) => some i
  | .error _ => none

end Sys2Proof
end

