-- ==== Sys2Proof/Machine/Operands.lean ====
section
/-! DEFINITION. The operand forms of CORE: sign extension (spec/00_scope.md R11), the immediates of
spec/30_encoding.md R71 to R76, and the shift amounts of R72 and R101. -/

namespace Sys2Proof.Machine

/-- `sext_n` of an n-bit field: the field read as a two's-complement integer, in 32 bits (R11). -/
def signExtend {n : Nat} (field : BitVec n) : Word := field.signExtend 32

/-- `sext_n(v)`: the low n bits of v, sign-extended (R11). -/
def sextN (n : Nat) (v : Word) : Word := signExtend (v.extractLsb' 0 n)

/-- `trunc32(i)`: the integer i modulo 2^32 (R10). -/
def trunc32 (i : Int) : Word := BitVec.ofInt 32 i

/-- The I-immediate (R71). -/
def immI (imm : BitVec 12) : Word := signExtend imm

/-- The shift amount of SLLI, SRLI and SRAI: u(imm[4:0]) (R72; the spec's decision D11). -/
def shiftImm (shamt : BitVec 5) : Nat := shamt.toNat

/-- The shift amount of SLL, SRL and SRA: the low 5 bits of x[rs2] (R101; the spec's decision D10). -/
def shiftReg (b : Word) : Nat := (b.extractLsb' 0 5).toNat

/-- `store_offset` (R73). -/
def storeOffset (immHigh : BitVec 7) (immLow : BitVec 5) : Word :=
  signExtend (immHigh ++ immLow : BitVec 12)

/-- `branch_offset` (R74): offset bit 12 is imm_high[6], bit 11 imm_low[0], bits 10:5 imm_high[5:0],
bits 4:1 imm_low[4:1], bit 0 zero. -/
def branchOffset (immHigh : BitVec 7) (immLow : BitVec 5) : Word :=
  signExtend (immHigh.extractLsb' 6 1 ++ immLow.extractLsb' 0 1 ++ immHigh.extractLsb' 0 6
    ++ immLow.extractLsb' 1 4 ++ 0#1 : BitVec 13)

/-- `jump_offset` (R75; the direction of the list is the spec's decision D29): offset bit 20 is
imm[19], bits 19:12 imm[7:0], bit 11 imm[8], bits 10:1 imm[18:9], bit 0 zero. -/
def jumpOffset (imm : BitVec 20) : Word :=
  signExtend (imm.extractLsb' 19 1 ++ imm.extractLsb' 0 8 ++ imm.extractLsb' 8 1
    ++ imm.extractLsb' 9 10 ++ 0#1 : BitVec 21)

/-- LUI's value, `sext_20(imm) << 12` (R76, R190). -/
def upperImm (imm : BitVec 20) : Word := signExtend imm <<< 12

end Sys2Proof.Machine
end

