-- ==== Sys2Proof/Machine/State.lean ====
section
/-! DEFINITION. The state of CORE, plain data: the tuple (X, PC, MEM, STATUS, OUT) of
spec/10_state.md, with two fields of the model's own (the parameters of R8 and the count of draws);
the ways a step can stop; and the state right after reset (R35, R250). -/

namespace Sys2Proof.Machine

/-- A general register: a 32-bit value, or the spec's own state `unset` (R22, R35). Log entry 11. -/
inductive RegCell where
  /-- Never written since the launch and given no value by INIT_REGS; a read raises UnsetRegister. -/
  | unset
  | val (v : Word)
  deriving DecidableEq, Repr

/-- An error of R221 with the value it records: `F(info)` of R15. -/
inductive Err where
  | unknownOpcode (w : Word)
  | invalidInstruction (w : Word)
  | unhandledOpcode (w : Word)
  | illegalSyscall (n : Word)
  | invalidRead (a : Word)
  | invalidWrite (a : Word)
  | misalignedFetch (pc : Word)
  | divideFault (w : Word)
  | unsetRegister (i : RegIdx)
  deriving DecidableEq, Repr

/-- The code of R221, the spec's own numbering (spec/92_eei_decisions.md D31). -/
def Err.code : Err → Nat
  | .unknownOpcode _ => 1
  | .invalidInstruction _ => 2
  | .unhandledOpcode _ => 3
  | .illegalSyscall _ => 4
  | .invalidRead _ => 5
  | .invalidWrite _ => 6
  | .misalignedFetch _ => 7
  | .divideFault _ => 8
  | .unsetRegister _ => 9

/-- The run status (R31). -/
inductive Status where
  | running
  /-- `Exited(0)`: reached by syscall 10 (R204). -/
  | exited
  /-- `Failed(F, info)`: reached by any raise (R220). -/
  | failed (e : Err)
  deriving DecidableEq, Repr

/-- One event of the output stream (R32). -/
inductive Event where
  /-- One byte written to standard output. -/
  | console (b : Byte)
  /-- A diagnostic line: its kind and value; its text and stream are not modelled (R223). -/
  | diag (e : Err)
  deriving DecidableEq, Repr

/-- The byte memory: the bytes that differ from `Config.unlistedByte`, by rising address. -/
abbrev Memory := List Host.Cell

/-- The canonical form: addresses strictly rise, and no entry equals what an unlisted address reads
as; so equal memories are equal lists. -/
abbrev Memory.wf (m : Memory) : Prop :=
  m.Pairwise (fun c d => c.1 < d.1) ∧ ∀ c ∈ m, c.2 ≠ Config.unlistedByte

/-- The state of CORE. -/
structure State where
  /-- X: the general registers x0 to x31 (R20). -/
  regs : Vector RegCell 32
  /-- PC: the address of the instruction being executed (R25). -/
  pc : Word
  /-- MEM: the bytes at addresses 0 to N-1, N being `params.memSize` (R30). -/
  mem : Memory
  /-- STATUS (R31). -/
  status : Status
  /-- OUT: the output stream, the oldest event first (R32). -/
  out : List Event
  /-- How many values `draw32()` has given (R15); the model's own field, log entry 7. -/
  draws : Nat
  /-- The parameters of R8, which no step changes; the model's own field, log entry 5. -/
  params : Config.Params
  deriving DecidableEq, Repr

/-- Why a step stops the machine. -/
inductive Fault where
  /-- Raised by `step` alone, in a state whose STATUS is not Running: the run has ended and no step
  is taken (R31, R235, R253). Safe: it stops where the spec takes no step. Log entry 9. -/
  | runEnded (status : Status)
  deriving DecidableEq, Repr

/-- Why an instruction has no meaning in the model. -/
inductive Refusal where
  /-- Raised by an arm of `exec` for an instruction that has no meaning yet; no arm raises it. Safe. -/
  | notModelled (mnemonic : String)
  deriving DecidableEq, Repr

/-- The launch of a run (R35, R250): the host gives the parameters, ENTRY_PC, INIT_REGS and INIT_MEM;
under X0_POLICY = DISCARD x0 is 0. -/
def State.launch (p : Config.Params) (entryPc : Word) (initRegs : Vector RegCell 32)
    (initMem : Memory) : State where
  regs := if p.x0Policy = .discard then initRegs.set 0 (.val 0) else initRegs
  pc := entryPc
  mem := initMem
  status := .running
  out := []
  draws := 0
  params := p

/-- The machine right after reset: a launch with the defaults of R8. ENTRY_PC, INIT_REGS and INIT_MEM
are open in the spec; 0, all 0 and all 0 are the model's (DESIGN CHOICE, log entries 1, 2, 4). -/
def State.reset : State :=
  State.launch Config.defaults 0 (Vector.replicate 32 (.val 0)) []

/-- The exit status of the run, once it has ended (R31, R220). -/
def State.exitStatus (s : State) : Option Int :=
  match s.status with
  | .running => none
  | .exited => some 0
  | .failed _ => some s.params.failStatus

end Sys2Proof.Machine
end

