-- ==== Sys2Proof/Machine/Ops.lean ====
section
/-! DEFINITION. The named operations over registers, memory, PC, the run status and the output stream
(spec/00_scope.md R13 to R15), raising an error (spec/60_exceptions.md R220), and fetching an
instruction (spec/20_memory.md R47). -/

namespace Sys2Proof.Machine

/-- What one instruction or one step answers. -/
abbrev Result := Host.Outcome State Fault Refusal

/-! ## Memory -/

/-- The byte at an address. -/
def Memory.read : Memory → Nat → Byte
  | [], _ => Config.unlistedByte
  | (k, b) :: m, a => if k = a then b else Memory.read m a

/-- The entry for a byte, if it needs one, in front of a memory. -/
def Memory.entry (a : Nat) (v : Byte) (m : Memory) : Memory :=
  if v = Config.unlistedByte then m else (a, v) :: m

/-- Write one byte, keeping the canonical form. -/
def Memory.write : Memory → Nat → Byte → Memory
  | [], a, v => Memory.entry a v []
  | (k, b) :: m, a, v =>
    if a < k then Memory.entry a v ((k, b) :: m)
    else if a = k then Memory.entry a v m
    else (k, b) :: Memory.write m a v

/-- The n bytes from address a up, assembled little-endian into an unsigned value in 32 bits, for n
up to 4 (R14, R42). -/
def Memory.load (m : Memory) (a : Nat) : Nat → Word
  | 0 => 0
  | n + 1 => (m.read a).setWidth 32 ||| (Memory.load m (a + 1) n <<< 8)

/-- Store the low 8n bits of v at the n bytes from address a up, the least significant byte at a
(R14, R42). -/
def Memory.store (m : Memory) (a : Nat) : Nat → Word → Memory
  | 0, _ => m
  | n + 1, v => Memory.store (m.write a (v.setWidth 8)) (a + 1) n (v >>> 8)

/-! ## Registers (R13, R21, R22) -/

/-- What register i holds. -/
def State.reg (s : State) (i : RegIdx) : RegCell := s.regs[i.toNat]'i.isLt

/-- `x[i] <- v`: under X0_POLICY = DISCARD a write to x0 is dropped (R21). -/
def State.writeReg (s : State) (i : RegIdx) (v : Word) : State :=
  if s.params.x0Policy = .discard ∧ i = 0 then s
  else { s with regs := s.regs.set i.toNat (.val v) i.isLt }

/-! ## PC (R170, R171, R172) -/

/-- The generic advance, `pc <- pc + 4` modulo 2^32 (R26, R170). -/
def State.advance (s : State) : State := { s with pc := s.pc + 4 }

/-- `pc <- target`. -/
def State.jump (s : State) (target : Word) : State := { s with pc := target }

/-! ## Outcomes (R15) -/

/-- `raise F(info)`, the one way this hardware takes an exception: X, PC and MEM stay as they are,
the diagnostic is appended to OUT and the run fails (R15, R220). There is no return from it (R228). -/
def State.raise (s : State) (e : Err) : State :=
  { s with out := s.out ++ [.diag e], status := .failed e }

/-- `report F(info)`: the diagnostic is appended to OUT and the instruction goes on (R15, R222). -/
def State.report (s : State) (e : Err) : State := { s with out := s.out ++ [.diag e] }

/-- `emit(bytes)`: one Console event per byte (R15, R32). -/
def State.emit (s : State) (bytes : List Byte) : State :=
  { s with out := s.out ++ bytes.map .console }

/-- `halt_success()`: the run ends in Exited(0), PC unchanged (R15, R204). -/
def State.haltSuccess (s : State) : State := { s with status := .exited }

/-- The value the next `draw32()` gives (R15). -/
def State.drawn (s : State) : Word := Config.draw32 s.draws

/-- The state after a `draw32()`. -/
def State.afterDraw (s : State) : State := { s with draws := s.draws + 1 }

/-- A step that raises e ends with the raised state. Log entry 8. -/
def State.raised (s : State) (e : Err) : Result := .next (s.raise e)

/-! ## Reads and accesses that may raise -/

/-- Read `x[i]` and go on with its value, or raise UnsetRegister(i) (R22). -/
def withReg (s : State) (i : RegIdx) (k : Word → Result) : Result :=
  match s.reg i with
  | .unset => s.raised (.unsetRegister i)
  | .val v => k v

/-- The bounds check: an access of n bytes at a is admitted iff u(a) + n ≤ N (R44). -/
def State.admits (s : State) (a : Word) (n : Nat) : Bool := a.toNat + n ≤ s.params.memSize

/-- `MemRead(a, n)` and go on with its value, or raise InvalidRead(a) (R14, R44). -/
def withLoad (s : State) (a : Word) (n : Nat) (k : Word → Result) : Result :=
  if s.admits a n then k (s.mem.load a.toNat n) else s.raised (.invalidRead a)

/-- `MemWrite(a, n, v)` and go on with the state after it, or raise InvalidWrite(a) (R14, R44). -/
def withStore (s : State) (a : Word) (n : Nat) (v : Word) (k : State → Result) : Result :=
  if s.admits a n then k { s with mem := s.mem.store a.toNat n v }
  else s.raised (.invalidWrite a)

/-! ## Fetch (R47, R225, R253) -/

/-- The error of a rejected word. -/
def rejectErr : Reject → Err
  | .unknownOpcode w => .unknownOpcode w
  | .invalidInstruction w => .invalidInstruction w

/-- Fetch the word at pc: the alignment check first, then the bounds check (R47, R225). -/
def fetch (s : State) : Except Err Word :=
  if s.params.fetchMisaligned = .fault ∧ s.pc.extractLsb' 0 2 ≠ 0 then
    .error (.misalignedFetch s.pc)
  else if s.admits s.pc 4 then .ok (s.mem.load s.pc.toNat 4)
  else .error (.invalidRead s.pc)

/-- Fetch and decode the instruction at pc (R225, R253). -/
def fetchDecode (s : State) : Except Err Instr :=
  match fetch s with
  | .error e => .error e
  | .ok w =>
    match decode s.params.strictFunct7 w with
    | .error r => .error (rejectErr r)
    | .ok i => .ok i

/-- The state with a word placed, little-endian, at pc, where memory reaches there. -/
def State.placeWord (s : State) (w : Word) : State :=
  if s.admits s.pc 4 then { s with mem := s.mem.store s.pc.toNat 4 w } else s

end Sys2Proof.Machine
end

