-- ==== Sys2Proof/Machine/Control.lean ====
section
/-! DEFINITION. Control transfer: branches, opcode 0x63, JAL, opcode 0x6F, and the unhandled opcode
0x67 (spec/43_control_transfer.md). -/

namespace Sys2Proof.Machine

/-- The branch handler: the net next PC of R171. -/
def branchOp (s : State) (rs1 rs2 : RegIdx) (immHigh : BitVec 7) (immLow : BitVec 5)
    (taken : Word → Word → Bool) : Result :=
  withReg s rs1 fun a => withReg s rs2 fun b =>
    if taken a b then .next (s.jump (s.pc + branchOffset immHigh immLow)) else .next s.advance

/-- BEQ (R173). -/
def execBeq (rs1 rs2 : RegIdx) (immHigh : BitVec 7) (immLow : BitVec 5) (s : State) : Result :=
  branchOp s rs1 rs2 immHigh immLow branchEq

/-- BNE (R174). -/
def execBne (rs1 rs2 : RegIdx) (immHigh : BitVec 7) (immLow : BitVec 5) (s : State) : Result :=
  branchOp s rs1 rs2 immHigh immLow branchNe

/-- JAL: the link pc + 4 to x[rd], then pc + jump_offset (R172). -/
def execJal (rd : RegIdx) (imm : BitVec 20) (s : State) : Result :=
  .next ((s.writeReg rd (s.pc + 4)).jump (s.pc + jumpOffset imm))

/-- Opcode 0x67: raises UnhandledOpcode(w) before reading any register (R176). -/
def execJalrUnhandled (rd rs1 : RegIdx) (funct3 : BitVec 3) (imm : BitVec 12) (s : State) : Result :=
  s.raised (.unhandledOpcode (encode (.jalrUnhandled rd rs1 funct3 imm)))

end Sys2Proof.Machine
end

