-- ==== Sys2Proof/Machine/Custom.lean ====
section
/-! DEFINITION. The custom instruction LSGT, opcode 0x2A (spec/40_register_register.md R116). -/

namespace Sys2Proof.Machine

/-- LSGT: load the word at the address x[rs2]; if x[rs1] is greater, write it to x[rd], otherwise
write no register (R116). -/
def execLsgt (rd rs1 rs2 : RegIdx) (_funct3 : BitVec 3) (_funct7 : BitVec 7) (s : State) : Result :=
  withReg s rs1 fun a => withReg s rs2 fun addr => withLoad s addr 4 fun m =>
    if lsgtHolds s.params.lsgtCompare a m then .next (s.writeReg rd m).advance
    else .next s.advance

end Sys2Proof.Machine
end

