-- ==== Sys2Proof/Machine/Alu.lean ====
section
/-! DEFINITION. The arithmetic, logic and shift results that the register-register and the
register-immediate instructions share (spec/40_register_register.md, spec/41_immediate.md). -/

namespace Sys2Proof.Machine

/-- Addition modulo 2^32 (R102, R131). -/
def aluAdd (a b : Word) : Word := a + b

/-- Subtraction modulo 2^32 (R103). -/
def aluSub (a b : Word) : Word := a - b

/-- Bitwise exclusive or (R106, R134). -/
def aluXor (a b : Word) : Word := a ^^^ b

/-- Bitwise or (R109, R138). -/
def aluOr (a b : Word) : Word := a ||| b

/-- Bitwise and (R110, R139). -/
def aluAnd (a b : Word) : Word := a &&& b

/-- Left shift, the low 32 bits kept (R10, R104, R132). -/
def shiftLeft (a : Word) (k : Nat) : Word := a <<< k

/-- Logical right shift (R10, R107, R136). -/
def shiftRightLogical (a : Word) (k : Nat) : Word := a >>> k

/-- Arithmetic right shift, copies of bit 31 enter (R10, R108, R137). -/
def shiftRightArith (a : Word) (k : Nat) : Word := a.sshiftRight k

/-- The low 32 bits of the product (R111). -/
def mulLow (a b : Word) : Word := a * b

/-- MULH: the product shifted right arithmetically by 31, the product's width by MULH_MODE (R112). -/
def mulHigh (mode : Config.MulhMode) (a b : Word) : Word :=
  match mode with
  | .wide64 => trunc32 ((a.toInt * b.toInt).fdiv (2 ^ 31))
  | .narrow32 => (a * b).sshiftRight 31

/-- The corner cases of DIV and REM: divisor 0, or 0x80000000 by 0xFFFFFFFF (R113, R114). -/
def divideCorner (a b : Word) : Bool := b == 0 || (a == 0x80000000#32 && b == 0xFFFFFFFF#32)

/-- The quotient rounded toward zero (R113). -/
def divTrunc (a b : Word) : Word := trunc32 (a.toInt.tdiv b.toInt)

/-- The remainder that pairs with `divTrunc` (R114). -/
def remTrunc (a b : Word) : Word := trunc32 (a.toInt - b.toInt * a.toInt.tdiv b.toInt)

/-- DIV's result in a corner case under DIV_CORNER = RISCV (R113). -/
def divCornerValue (b : Word) : Word := if b = 0 then 0xFFFFFFFF#32 else 0x80000000#32

/-- REM's result in a corner case under DIV_CORNER = RISCV (R114). -/
def remCornerValue (a b : Word) : Word := if b = 0 then a else 0

end Sys2Proof.Machine
end

