-- ==== Sys2Proof/Machine/Immediate.lean ====
section
/-! DEFINITION. The register-immediate instructions, opcode 0x13 (spec/41_immediate.md R130 to R140). -/

namespace Sys2Proof.Machine

/-- The handler of opcode 0x13: read x[rs1], write the result to x[rd], advance (R130). -/
def immediateOp (s : State) (rd rs1 : RegIdx) (f : Word → Word) : Result :=
  withReg s rs1 fun a => .next (s.writeReg rd (f a)).advance

/-- ADDI (R131). -/
def execAddi (rd rs1 : RegIdx) (imm : BitVec 12) (s : State) : Result :=
  immediateOp s rd rs1 fun a => aluAdd a (immI imm)

/-- SLLI (R132). -/
def execSlli (rd rs1 : RegIdx) (shamt : BitVec 5) (_upper : BitVec 7) (s : State) : Result :=
  immediateOp s rd rs1 fun a => shiftLeft a (shiftImm shamt)

/-- SLTI (R133). -/
def execSlti (rd rs1 : RegIdx) (imm : BitVec 12) (s : State) : Result :=
  immediateOp s rd rs1 fun a => setLess a (immI imm)

/-- OPIMM-INVALID: under CONTINUE report, draw a value into x[rd] without reading x[rs1], and advance;
under FATAL raise (R140, R222). -/
def execOpimmInvalid (rd rs1 : RegIdx) (imm : BitVec 12) (s : State) : Result :=
  match s.params.opimmInvalid with
  | .goOn =>
    let reported := s.report (.invalidInstruction (encode (.opimmInvalid rd rs1 imm)))
    .next ((reported.writeReg rd s.drawn).afterDraw).advance
  | .fatal => s.raised (.invalidInstruction (encode (.opimmInvalid rd rs1 imm)))

/-- XORI (R134). -/
def execXori (rd rs1 : RegIdx) (imm : BitVec 12) (s : State) : Result :=
  immediateOp s rd rs1 fun a => aluXor a (immI imm)

/-- SRLI (R136). -/
def execSrli (rd rs1 : RegIdx) (shamt : BitVec 5) (_upper : BitVec 7) (s : State) : Result :=
  immediateOp s rd rs1 fun a => shiftRightLogical a (shiftImm shamt)

/-- SRAI (R137). -/
def execSrai (rd rs1 : RegIdx) (shamt : BitVec 5) (s : State) : Result :=
  immediateOp s rd rs1 fun a => shiftRightArith a (shiftImm shamt)

/-- ORI (R138). -/
def execOri (rd rs1 : RegIdx) (imm : BitVec 12) (s : State) : Result :=
  immediateOp s rd rs1 fun a => aluOr a (immI imm)

/-- ANDI (R139). -/
def execAndi (rd rs1 : RegIdx) (imm : BitVec 12) (s : State) : Result :=
  immediateOp s rd rs1 fun a => aluAnd a (immI imm)

end Sys2Proof.Machine
end

