-- ==== Sys2Proof/Machine/LoadStore.lean ====
section
/-! DEFINITION. Loads, opcode 0x03, and stores, opcode 0x23 (spec/42_load_store.md). -/

namespace Sys2Proof.Machine

/-- The load effective address (R150). -/
def loadAddress (base : Word) (imm : BitVec 12) : Word := base + immI imm

/-- The store effective address (R155). -/
def storeAddress (base : Word) (immHigh : BitVec 7) (immLow : BitVec 5) : Word :=
  base + storeOffset immHigh immLow

/-- The load handler: read x[rs1], load n bytes, write the extended value to x[rd], advance (R150). -/
def loadOp (s : State) (rd rs1 : RegIdx) (imm : BitVec 12) (n : Nat) (extend : Word → Word) : Result :=
  withReg s rs1 fun base => withLoad s (loadAddress base imm) n fun v =>
    .next (s.writeReg rd (extend v)).advance

/-- The store handler: read x[rs1], then x[rs2], store the low n bytes, advance (R155). -/
def storeOp (s : State) (rs1 rs2 : RegIdx) (immHigh : BitVec 7) (immLow : BitVec 5) (n : Nat) :
    Result :=
  withReg s rs1 fun base => withReg s rs2 fun v =>
    withStore s (storeAddress base immHigh immLow) n v fun t => .next t.advance

/-- LB (R151). -/
def execLb (rd rs1 : RegIdx) (imm : BitVec 12) (s : State) : Result :=
  loadOp s rd rs1 imm 1 (sextN 8)

/-- LH (R152). -/
def execLh (rd rs1 : RegIdx) (imm : BitVec 12) (s : State) : Result :=
  loadOp s rd rs1 imm 2 (sextN 16)

/-- LW (R153). -/
def execLw (rd rs1 : RegIdx) (imm : BitVec 12) (s : State) : Result :=
  loadOp s rd rs1 imm 4 fun v => v

/-- SB (R156). -/
def execSb (rs1 rs2 : RegIdx) (immHigh : BitVec 7) (immLow : BitVec 5) (s : State) : Result :=
  storeOp s rs1 rs2 immHigh immLow 1

/-- SH (R157). -/
def execSh (rs1 rs2 : RegIdx) (immHigh : BitVec 7) (immLow : BitVec 5) (s : State) : Result :=
  storeOp s rs1 rs2 immHigh immLow 2

/-- SW (R158). -/
def execSw (rs1 rs2 : RegIdx) (immHigh : BitVec 7) (immLow : BitVec 5) (s : State) : Result :=
  storeOp s rs1 rs2 immHigh immLow 4

end Sys2Proof.Machine
end

