-- ==== Sys2Proof/Machine/RegReg.lean ====
section
/-! DEFINITION. The register-register instructions, opcode 0x33 (spec/40_register_register.md R100 to
R114). -/

namespace Sys2Proof.Machine

/-- The handler of opcode 0x33: read x[rs1], then x[rs2], write the result to x[rd], advance (R100). -/
def registerOp (s : State) (rd rs1 rs2 : RegIdx) (f : Word → Word → Word) : Result :=
  withReg s rs1 fun a => withReg s rs2 fun b => .next (s.writeReg rd (f a b)).advance

/-- The handler of DIV and REM: `f` outside the corner cases; in them DivideFault(w) or `corner`, by
DIV_CORNER (R113, R114). -/
def divideOp (s : State) (w : Word) (rd rs1 rs2 : RegIdx) (f corner : Word → Word → Word) : Result :=
  withReg s rs1 fun a => withReg s rs2 fun b =>
    if divideCorner a b then
      match s.params.divCorner with
      | .fault => s.raised (.divideFault w)
      | .riscv => .next (s.writeReg rd (corner a b)).advance
    else .next (s.writeReg rd (f a b)).advance

/-- ADD (R102). -/
def execAdd (rd rs1 rs2 : RegIdx) (s : State) : Result := registerOp s rd rs1 rs2 aluAdd

/-- SUB (R103). -/
def execSub (rd rs1 rs2 : RegIdx) (s : State) : Result := registerOp s rd rs1 rs2 aluSub

/-- SLL (R104). -/
def execSll (rd rs1 rs2 : RegIdx) (s : State) : Result :=
  registerOp s rd rs1 rs2 fun a b => shiftLeft a (shiftReg b)

/-- SLT (R105). -/
def execSlt (rd rs1 rs2 : RegIdx) (_funct7 : BitVec 7) (s : State) : Result :=
  registerOp s rd rs1 rs2 setLess

/-- XOR (R106). -/
def execXor (rd rs1 rs2 : RegIdx) (s : State) : Result := registerOp s rd rs1 rs2 aluXor

/-- SRL (R107). -/
def execSrl (rd rs1 rs2 : RegIdx) (s : State) : Result :=
  registerOp s rd rs1 rs2 fun a b => shiftRightLogical a (shiftReg b)

/-- SRA (R108). -/
def execSra (rd rs1 rs2 : RegIdx) (s : State) : Result :=
  registerOp s rd rs1 rs2 fun a b => shiftRightArith a (shiftReg b)

/-- OR (R109). -/
def execOr (rd rs1 rs2 : RegIdx) (s : State) : Result := registerOp s rd rs1 rs2 aluOr

/-- AND (R110). -/
def execAnd (rd rs1 rs2 : RegIdx) (_funct7 : BitVec 7) (s : State) : Result :=
  registerOp s rd rs1 rs2 aluAnd

/-- MUL (R111). -/
def execMul (rd rs1 rs2 : RegIdx) (s : State) : Result := registerOp s rd rs1 rs2 mulLow

/-- MULH (R112). -/
def execMulh (rd rs1 rs2 : RegIdx) (s : State) : Result :=
  registerOp s rd rs1 rs2 (mulHigh s.params.mulhMode)

/-- DIV (R113); the word a DivideFault records is the instruction's own (log entry 12). -/
def execDiv (rd rs1 rs2 : RegIdx) (s : State) : Result :=
  divideOp s (encode (.div rd rs1 rs2)) rd rs1 rs2 divTrunc fun _ b => divCornerValue b

/-- REM (R114). -/
def execRem (rd rs1 rs2 : RegIdx) (s : State) : Result :=
  divideOp s (encode (.rem rd rs1 rs2)) rd rs1 rs2 remTrunc remCornerValue

end Sys2Proof.Machine
end

