-- ==== Sys2Proof/Machine/Syscall.lean ====
section
/-! DEFINITION. ECALL, opcode 0x73, and the syscall handler (spec/45_syscall.md). -/

namespace Sys2Proof.Machine

/-- The ASCII code of a decimal digit. -/
def digitByte (d : Nat) : Byte := BitVec.ofNat 8 (0x30 + d)

/-- The decimal digits of n, the most significant first; `fuel` = n is enough. -/
def digitsOf : (fuel : Nat) → Nat → List Byte
  | 0, n => [digitByte (n % 10)]
  | fuel + 1, n =>
    if n < 10 then [digitByte n] else digitsOf fuel (n / 10) ++ [digitByte (n % 10)]

/-- `decimal(i)`: the ASCII text of i in base 10, `-` (0x2D) in front of a negative one (R202). -/
def decimal (i : Int) : List Byte :=
  if i < 0 then 0x2D#8 :: digitsOf i.natAbs i.natAbs else digitsOf i.natAbs i.natAbs

/-- The bytes from address i up, to the first zero byte or for `fuel` bytes (R203). -/
def stringAt (m : Memory) : (fuel : Nat) → Nat → List Byte
  | 0, _ => []
  | fuel + 1, i => if m.read i = 0 then [] else m.read i :: stringAt m fuel (i + 1)

/-- Syscall 1, print integer (R202). -/
def printInteger (s : State) : Result :=
  withReg s 11 fun a => .next (s.emit (decimal a.toInt)).advance

/-- Syscall 4, print string: it stops before address N (R203, R56). -/
def printString (s : State) : Result :=
  withReg s 11 fun a =>
    .next (s.emit (stringAt s.mem (s.params.memSize - a.toNat) a.toNat)).advance

/-- Syscall 10, exit (R204). -/
def exitRun (s : State) : Result := .next (s.emit s.params.exitBanner).haltSuccess

/-- Syscall 11, print character (R205). -/
def printCharacter (s : State) : Result :=
  withReg s 11 fun a => .next (s.emit [a.extractLsb' 0 8]).advance

/-- ECALL: the syscall number is the whole of x10 (R200, R201, R206). -/
def execEcall (_rd _rs1 : RegIdx) (_funct3 : BitVec 3) (_imm : BitVec 12) (s : State) : Result :=
  withReg s 10 fun n =>
    if n = 1 then printInteger s
    else if n = 4 then printString s
    else if n = 10 then exitRun s
    else if n = 11 then printCharacter s
    else s.raised (.illegalSyscall n)

end Sys2Proof.Machine
end

