-- ==== Sys2Proof/Machine/Upper.lean ====
section
/-! DEFINITION. Upper-immediate instructions: LUI, opcode 0x37, and the unhandled opcode 0x17
(spec/44_upper_immediate.md). -/

namespace Sys2Proof.Machine

/-- LUI (R190). -/
def execLui (rd : RegIdx) (imm : BitVec 20) (s : State) : Result :=
  .next (s.writeReg rd (upperImm imm)).advance

/-- Opcode 0x17: raises UnhandledOpcode(w) (R192). -/
def execAuipcUnhandled (rd : RegIdx) (imm : BitVec 20) (s : State) : Result :=
  s.raised (.unhandledOpcode (encode (.auipcUnhandled rd imm)))

end Sys2Proof.Machine
end

