-- ==== Sys2Proof/Machine/Dispatch.lean ====
section
/-! DEFINITION. Which meaning an instruction has: one arm per constructor of Instr, in the order of
spec/opcode_table.json. -/

namespace Sys2Proof.Machine

def exec (i : Instr) (s : State) : Host.Outcome State Fault Refusal :=
  match i with
  | .add rd rs1 rs2 => Sys2Proof.Machine.execAdd rd rs1 rs2 s
  | .sub rd rs1 rs2 => Sys2Proof.Machine.execSub rd rs1 rs2 s
  | .sll rd rs1 rs2 => Sys2Proof.Machine.execSll rd rs1 rs2 s
  | .slt rd rs1 rs2 funct7 => Sys2Proof.Machine.execSlt rd rs1 rs2 funct7 s
  | .xor rd rs1 rs2 => Sys2Proof.Machine.execXor rd rs1 rs2 s
  | .srl rd rs1 rs2 => Sys2Proof.Machine.execSrl rd rs1 rs2 s
  | .sra rd rs1 rs2 => Sys2Proof.Machine.execSra rd rs1 rs2 s
  | .or rd rs1 rs2 => Sys2Proof.Machine.execOr rd rs1 rs2 s
  | .and rd rs1 rs2 funct7 => Sys2Proof.Machine.execAnd rd rs1 rs2 funct7 s
  | .mul rd rs1 rs2 => Sys2Proof.Machine.execMul rd rs1 rs2 s
  | .mulh rd rs1 rs2 => Sys2Proof.Machine.execMulh rd rs1 rs2 s
  | .div rd rs1 rs2 => Sys2Proof.Machine.execDiv rd rs1 rs2 s
  | .rem rd rs1 rs2 => Sys2Proof.Machine.execRem rd rs1 rs2 s
  | .lsgt rd rs1 rs2 funct3 funct7 => Sys2Proof.Machine.execLsgt rd rs1 rs2 funct3 funct7 s
  | .addi rd rs1 imm => Sys2Proof.Machine.execAddi rd rs1 imm s
  | .slli rd rs1 shamt upper => Sys2Proof.Machine.execSlli rd rs1 shamt upper s
  | .slti rd rs1 imm => Sys2Proof.Machine.execSlti rd rs1 imm s
  | .opimmInvalid rd rs1 imm => Sys2Proof.Machine.execOpimmInvalid rd rs1 imm s
  | .xori rd rs1 imm => Sys2Proof.Machine.execXori rd rs1 imm s
  | .srli rd rs1 shamt upper => Sys2Proof.Machine.execSrli rd rs1 shamt upper s
  | .srai rd rs1 shamt => Sys2Proof.Machine.execSrai rd rs1 shamt s
  | .ori rd rs1 imm => Sys2Proof.Machine.execOri rd rs1 imm s
  | .andi rd rs1 imm => Sys2Proof.Machine.execAndi rd rs1 imm s
  | .lb rd rs1 imm => Sys2Proof.Machine.execLb rd rs1 imm s
  | .lh rd rs1 imm => Sys2Proof.Machine.execLh rd rs1 imm s
  | .lw rd rs1 imm => Sys2Proof.Machine.execLw rd rs1 imm s
  | .sb rs1 rs2 immHigh immLow => Sys2Proof.Machine.execSb rs1 rs2 immHigh immLow s
  | .sh rs1 rs2 immHigh immLow => Sys2Proof.Machine.execSh rs1 rs2 immHigh immLow s
  | .sw rs1 rs2 immHigh immLow => Sys2Proof.Machine.execSw rs1 rs2 immHigh immLow s
  | .beq rs1 rs2 immHigh immLow => Sys2Proof.Machine.execBeq rs1 rs2 immHigh immLow s
  | .bne rs1 rs2 immHigh immLow => Sys2Proof.Machine.execBne rs1 rs2 immHigh immLow s
  | .jal rd imm => Sys2Proof.Machine.execJal rd imm s
  | .jalrUnhandled rd rs1 funct3 imm => Sys2Proof.Machine.execJalrUnhandled rd rs1 funct3 imm s
  | .lui rd imm => Sys2Proof.Machine.execLui rd imm s
  | .auipcUnhandled rd imm => Sys2Proof.Machine.execAuipcUnhandled rd imm s
  | .ecall rd rs1 funct3 imm => Sys2Proof.Machine.execEcall rd rs1 funct3 imm s

end Sys2Proof.Machine
end

