-- ==== Sys2Proof/Machine/Step.lean ====
section
/-! DEFINITION. One step of CORE (spec/70_reset_and_hazards.md R253). -/

namespace Sys2Proof.Machine

/-- One step, taken only while STATUS = Running: fetch, decode, execute; a failed check of the fetch
or of decoding raises (R225, R253). -/
def step (s : State) : Host.Outcome State Fault Refusal :=
  match s.status with
  | .running =>
    match fetchDecode s with
    | .error e => s.raised e
    | .ok i => exec i s
  | ended => .fault (.runEnded ended)

/-- s with the word of a table row's bits stored at pc, where the next step fetches. Log entry 10. -/
def State.withFetchWord (s : State) (nbits w : Nat) : State :=
  s.placeWord (BitVec.ofNat 32 (w % 2 ^ nbits))

end Sys2Proof.Machine
end

