-- ==== Sys2Proof/Safety.lean ====
section
/-! DEFINITION. The terms claims are stated in: the invariant of a run, what an instruction reads and
writes (spec/10_state.md R23), and the shapes an outcome can have, each saying all of the next
state: what changes and that nothing else does. Memory is compared byte by byte. -/

namespace Sys2Proof.Machine

/-! ## The invariant -/

/-- What every launch sets up and every step keeps: the parameters are in the ranges of R8, memory is
canonical and lies within 0 to N-1 (R30), and under X0_POLICY = DISCARD x0 holds 0 (R22, R35). -/
abbrev State.Inv (s : State) : Prop :=
  s.params.wf ∧ s.mem.wf ∧ (∀ c ∈ s.mem, c.1 < s.params.memSize) ∧
    (s.params.x0Policy = .discard → s.reg 0 = .val 0)

/-! ## What an instruction reads and writes (R23) -/

end Sys2Proof.Machine

namespace Sys2Proof

/-- The registers an instruction reads, in the order its rule lists them (R23, R225); x11 is read by
ECALL only for syscalls 1, 4 and 11. -/
def Instr.reads : Instr → List RegIdx
  | .add _ rs1 rs2 => [rs1, rs2]
  | .sub _ rs1 rs2 => [rs1, rs2]
  | .sll _ rs1 rs2 => [rs1, rs2]
  | .slt _ rs1 rs2 _ => [rs1, rs2]
  | .xor _ rs1 rs2 => [rs1, rs2]
  | .srl _ rs1 rs2 => [rs1, rs2]
  | .sra _ rs1 rs2 => [rs1, rs2]
  | .or _ rs1 rs2 => [rs1, rs2]
  | .and _ rs1 rs2 _ => [rs1, rs2]
  | .mul _ rs1 rs2 => [rs1, rs2]
  | .mulh _ rs1 rs2 => [rs1, rs2]
  | .div _ rs1 rs2 => [rs1, rs2]
  | .rem _ rs1 rs2 => [rs1, rs2]
  | .lsgt _ rs1 rs2 _ _ => [rs1, rs2]
  | .addi _ rs1 _ => [rs1]
  | .slli _ rs1 _ _ => [rs1]
  | .slti _ rs1 _ => [rs1]
  | .opimmInvalid _ _ _ => []
  | .xori _ rs1 _ => [rs1]
  | .srli _ rs1 _ _ => [rs1]
  | .srai _ rs1 _ => [rs1]
  | .ori _ rs1 _ => [rs1]
  | .andi _ rs1 _ => [rs1]
  | .lb _ rs1 _ => [rs1]
  | .lh _ rs1 _ => [rs1]
  | .lw _ rs1 _ => [rs1]
  | .sb rs1 rs2 _ _ => [rs1, rs2]
  | .sh rs1 rs2 _ _ => [rs1, rs2]
  | .sw rs1 rs2 _ _ => [rs1, rs2]
  | .beq rs1 rs2 _ _ => [rs1, rs2]
  | .bne rs1 rs2 _ _ => [rs1, rs2]
  | .jal _ _ => []
  | .jalrUnhandled _ _ _ _ => []
  | .lui _ _ => []
  | .auipcUnhandled _ _ => []
  | .ecall _ _ _ _ => [10, 11]

/-- The register an instruction may write (R23, R140). -/
def Instr.dest : Instr → Option RegIdx
  | .add rd _ _ => some rd
  | .sub rd _ _ => some rd
  | .sll rd _ _ => some rd
  | .slt rd _ _ _ => some rd
  | .xor rd _ _ => some rd
  | .srl rd _ _ => some rd
  | .sra rd _ _ => some rd
  | .or rd _ _ => some rd
  | .and rd _ _ _ => some rd
  | .mul rd _ _ => some rd
  | .mulh rd _ _ => some rd
  | .div rd _ _ => some rd
  | .rem rd _ _ => some rd
  | .lsgt rd _ _ _ _ => some rd
  | .addi rd _ _ => some rd
  | .slli rd _ _ _ => some rd
  | .slti rd _ _ => some rd
  | .opimmInvalid rd _ _ => some rd
  | .xori rd _ _ => some rd
  | .srli rd _ _ _ => some rd
  | .srai rd _ _ => some rd
  | .ori rd _ _ => some rd
  | .andi rd _ _ => some rd
  | .lb rd _ _ => some rd
  | .lh rd _ _ => some rd
  | .lw rd _ _ => some rd
  | .sb _ _ _ _ => none
  | .sh _ _ _ _ => none
  | .sw _ _ _ _ => none
  | .beq _ _ _ _ => none
  | .bne _ _ _ _ => none
  | .jal rd _ => some rd
  | .jalrUnhandled _ _ _ _ => none
  | .lui rd _ => some rd
  | .auipcUnhandled _ _ => none
  | .ecall _ _ _ _ => none

/-- The three instructions that write memory (R23, R40). -/
def Instr.stores : Instr → Bool
  | .add .. => false
  | .sub .. => false
  | .sll .. => false
  | .slt .. => false
  | .xor .. => false
  | .srl .. => false
  | .sra .. => false
  | .or .. => false
  | .and .. => false
  | .mul .. => false
  | .mulh .. => false
  | .div .. => false
  | .rem .. => false
  | .lsgt .. => false
  | .addi .. => false
  | .slli .. => false
  | .slti .. => false
  | .opimmInvalid .. => false
  | .xori .. => false
  | .srli .. => false
  | .srai .. => false
  | .ori .. => false
  | .andi .. => false
  | .lb .. => false
  | .lh .. => false
  | .lw .. => false
  | .sb .. => true
  | .sh .. => true
  | .sw .. => true
  | .beq .. => false
  | .bne .. => false
  | .jal .. => false
  | .jalrUnhandled .. => false
  | .lui .. => false
  | .auipcUnhandled .. => false
  | .ecall .. => false

end Sys2Proof

namespace Sys2Proof.Machine

/-! ## Outcomes -/

/-- What register j holds after `x[rd] <- v` from s: v in rd, but nothing is written to x0 under
X0_POLICY = DISCARD; every other register as before (R21). -/
def regAfter (s : State) (rd : RegIdx) (v : Word) (j : RegIdx) : RegCell :=
  if j = rd ∧ ¬ (s.params.x0Policy = .discard ∧ rd = 0) then .val v else s.reg j

/-- STATUS, OUT, the draws and the parameters are as before. -/
def SameRun (s t : State) : Prop :=
  t.status = s.status ∧ t.out = s.out ∧ t.draws = s.draws ∧ t.params = s.params

/-- From s, r is a next state with v written to rd and the given pc, and nothing else changed. -/
def WritesOnly (r : Result) (s : State) (rd : RegIdx) (v pc : Word) : Prop :=
  ∃ t, r = .next t ∧ (∀ j, t.reg j = regAfter s rd v j) ∧
    (∀ a, t.mem.read a = s.mem.read a) ∧ t.pc = pc ∧ SameRun s t

/-- From s, r is a next state with the given pc and nothing else changed. -/
def MovesOnly (r : Result) (s : State) (pc : Word) : Prop :=
  ∃ t, r = .next t ∧ (∀ j, t.reg j = s.reg j) ∧
    (∀ a, t.mem.read a = s.mem.read a) ∧ t.pc = pc ∧ SameRun s t

/-- From s, r is a next state with byte k of v at address a + k for every k below n, every other byte
of memory as before, pc + 4 and nothing else changed (R42, R155). -/
def StoresOnly (r : Result) (s : State) (a n : Nat) (v : Word) : Prop :=
  ∃ t, r = .next t ∧ (∀ j, t.reg j = s.reg j) ∧
    (∀ k, k < n → t.mem.read (a + k) = v.extractLsb' (8 * k) 8) ∧
    (∀ b, b < a ∨ a + n ≤ b → t.mem.read b = s.mem.read b) ∧
    t.pc = s.pc + 4 ∧ SameRun s t

/-- From s, r is a next state with the bytes printed, pc + 4 and nothing else changed. -/
def PrintsOnly (r : Result) (s : State) (bytes : List Byte) : Prop :=
  ∃ t, r = .next t ∧ (∀ j, t.reg j = s.reg j) ∧
    (∀ a, t.mem.read a = s.mem.read a) ∧ t.pc = s.pc + 4 ∧
    t.out = s.out ++ bytes.map .console ∧
    t.status = s.status ∧ t.draws = s.draws ∧ t.params = s.params

/-- From s, r is the raise of e: X, MEM and PC as before, the diagnostic appended to OUT, the run
failed with FAIL_STATUS (R220). -/
def RaisesOn (r : Result) (s : State) (e : Err) : Prop :=
  ∃ t, r = .next t ∧ (∀ j, t.reg j = s.reg j) ∧
    (∀ a, t.mem.read a = s.mem.read a) ∧ t.pc = s.pc ∧
    t.out = s.out ++ [.diag e] ∧ t.status = .failed e ∧
    t.exitStatus = some s.params.failStatus ∧ t.draws = s.draws ∧ t.params = s.params

/-- The instruction reads rs1: with a value there, `post` of it holds; otherwise it raises
UnsetRegister(rs1) (R22). -/
def ReadsOne (i : Instr) (s : State) (rs1 : RegIdx) (post : Word → Prop) : Prop :=
  (∀ a, s.reg rs1 = .val a → post a) ∧
    (s.reg rs1 = .unset → RaisesOn (exec i s) s (.unsetRegister rs1))

/-- The instruction reads rs1 and rs2: with values there, `post` of them holds; otherwise it raises
UnsetRegister of one that holds none (R22). -/
def ReadsTwo (i : Instr) (s : State) (rs1 rs2 : RegIdx) (post : Word → Word → Prop) : Prop :=
  (∀ a b, s.reg rs1 = .val a → s.reg rs2 = .val b → post a b) ∧
    (s.reg rs1 = .unset ∨ s.reg rs2 = .unset →
      ∃ r, (r = rs1 ∨ r = rs2) ∧ s.reg r = .unset ∧ RaisesOn (exec i s) s (.unsetRegister r))

/-! ## Words, numbers and text -/

/-- R69: the eleven recognised opcodes. -/
def recognisedOpcodes : List (BitVec 7) :=
  [0x33, 0x2A, 0x13, 0x03, 0x73, 0x67, 0x23, 0x37, 0x17, 0x6F, 0x63]

/-- The rows of spec/opcode_table.json: mnemonic, mask, match. SRAI's row comes before SRLI's, whose
mask takes in SRAI's words (the table's own note on that row). -/
def opcodeRows : List (String × Word × Word) :=
  [("ADD", 0xFE00707F, 0x00000033), ("SUB", 0xFE00707F, 0x40000033),
   ("SLL", 0xFE00707F, 0x00001033), ("SLT", 0x0000707F, 0x00002033),
   ("XOR", 0xFE00707F, 0x00004033), ("SRL", 0xFE00707F, 0x00005033),
   ("SRA", 0xFE00707F, 0x40005033), ("OR", 0xFE00707F, 0x00006033),
   ("AND", 0x0000707F, 0x00007033), ("MUL", 0xFE00707F, 0x02000033),
   ("MULH", 0xFE00707F, 0x02001033), ("DIV", 0xFE00707F, 0x02004033),
   ("REM", 0xFE00707F, 0x02006033), ("LSGT", 0x0000007F, 0x0000002A),
   ("ADDI", 0x0000707F, 0x00000013), ("SLLI", 0x0000707F, 0x00001013),
   ("SLTI", 0x0000707F, 0x00002013), ("OPIMM-INVALID", 0x0000707F, 0x00003013),
   ("XORI", 0x0000707F, 0x00004013), ("SRAI", 0xFE00707F, 0x40005013),
   ("SRLI", 0x0000707F, 0x00005013), ("ORI", 0x0000707F, 0x00006013),
   ("ANDI", 0x0000707F, 0x00007013), ("LB", 0x0000707F, 0x00000003),
   ("LH", 0x0000707F, 0x00001003), ("LW", 0x0000707F, 0x00002003),
   ("SB", 0x0000707F, 0x00000023), ("SH", 0x0000707F, 0x00001023),
   ("SW", 0x0000707F, 0x00002023), ("BEQ", 0x0000707F, 0x00000063),
   ("BNE", 0x0000707F, 0x00001063), ("JAL", 0x0000007F, 0x0000006F),
   ("JALR-UNHANDLED", 0x0000007F, 0x00000067), ("LUI", 0x0000007F, 0x00000037),
   ("AUIPC-UNHANDLED", 0x0000007F, 0x00000017), ("ECALL", 0x0000007F, 0x00000073)]

/-- The table's mnemonic for an instruction. -/
def mnemonicOf : Instr → String
  | .add .. => "ADD" | .sub .. => "SUB" | .sll .. => "SLL" | .slt .. => "SLT" | .xor .. => "XOR"
  | .srl .. => "SRL" | .sra .. => "SRA" | .or .. => "OR" | .and .. => "AND" | .mul .. => "MUL"
  | .mulh .. => "MULH" | .div .. => "DIV" | .rem .. => "REM" | .lsgt .. => "LSGT"
  | .addi .. => "ADDI" | .slli .. => "SLLI" | .slti .. => "SLTI"
  | .opimmInvalid .. => "OPIMM-INVALID" | .xori .. => "XORI" | .srli .. => "SRLI"
  | .srai .. => "SRAI" | .ori .. => "ORI" | .andi .. => "ANDI" | .lb .. => "LB" | .lh .. => "LH"
  | .lw .. => "LW" | .sb .. => "SB" | .sh .. => "SH" | .sw .. => "SW" | .beq .. => "BEQ"
  | .bne .. => "BNE" | .jal .. => "JAL" | .jalrUnhandled .. => "JALR-UNHANDLED" | .lui .. => "LUI"
  | .auipcUnhandled .. => "AUIPC-UNHANDLED" | .ecall .. => "ECALL"

/-- The first row a word matches. -/
def rowOf (w : Word) : Option String :=
  (opcodeRows.find? fun r => w &&& r.2.1 == r.2.2).map (·.1)

/-- R78: opcode 0x33 with a funct3 and funct7 that map to no instruction; SLT and AND take any funct7
unless STRICT_FUNCT7 is TRUE. -/
def unmappedOp (strict : Bool) (w : Word) : Prop :=
  opcodeOf w = 0x33 ∧
    (funct3Of w, funct7Of w) ∉
      ([(0x0, 0x00), (0x0, 0x01), (0x0, 0x20), (0x1, 0x00), (0x1, 0x01), (0x4, 0x00), (0x4, 0x01),
        (0x5, 0x00), (0x5, 0x20), (0x6, 0x00), (0x6, 0x01)] : List (BitVec 3 × BitVec 7)) ∧
    ¬ ((funct3Of w = 0x2 ∨ funct3Of w = 0x7) ∧ (strict = false ∨ funct7Of w = 0x00))

/-- R154, R159, R175: a load or store with funct3 3 to 7, or a branch with funct3 2 to 7. -/
def unmappedFunct3 (w : Word) : Prop :=
  (opcodeOf w = 0x03 ∧ 3 ≤ (funct3Of w).toNat) ∨
  (opcodeOf w = 0x23 ∧ 3 ≤ (funct3Of w).toNat) ∨
  (opcodeOf w = 0x63 ∧ 2 ≤ (funct3Of w).toNat)

/-- q is the quotient of a by b rounded toward zero: what is left over is smaller than b and has the
sign of a or is zero. -/
def truncatedQuotient (a b q : Int) : Prop :=
  (a - b * q).natAbs < b.natAbs ∧ (0 ≤ a → 0 ≤ a - b * q) ∧ (a ≤ 0 → a - b * q ≤ 0)

/-- The corner cases of DIV and REM (R113, R114). -/
def corner (a b : Word) : Prop := b = 0 ∨ (a = 0x80000000 ∧ b = 0xFFFFFFFF)

/-- The four bytes from address a up, as a little-endian word (R42). -/
def wordAt (s : State) (a : Nat) : Word :=
  s.mem.read (a + 3) ++ s.mem.read (a + 2) ++ s.mem.read (a + 1) ++ s.mem.read a

/-- Bit k of a 12-bit immediate sign-extended to 32 bits. -/
def immBit (imm : BitVec 12) (k : Nat) : Bool := k < 32 && imm.getLsbD (min k 11)

/-- The bytes are decimal digits without a leading zero, and their value is n. -/
def decimalDigits (bytes : List Byte) (n : Nat) : Prop :=
  bytes ≠ [] ∧ (∀ b ∈ bytes, 0x30 ≤ b.toNat ∧ b.toNat ≤ 0x39) ∧
    (bytes.head? = some 0x30 → bytes = [0x30]) ∧
    bytes.foldl (fun m b => 10 * m + (b.toNat - 0x30)) 0 = n

end Sys2Proof.Machine
end

