-- ==== Sys2Proof/Certificates/Slice0/Obligations.lean ====
section
/-! DEFINITION. The statements for the provers, from the numbered rules of spec/. Every statement
holds for every setting of the parameters of R8 (they are a field of the state) unless it names one;
a clause that rests on a decision of the spec (spec/92_eei_decisions.md) or on a choice of the model
(notes/assumptions/) says so in its docstring. -/

open Sys2Proof Sys2Proof.Machine

/-! ## Encoding and decoding -/

/-- Decoding the word of a well-formed instruction gives that instruction, with every operand field
at every value (spec/30_encoding.md sections 2 to 5; the fields kept are log entry 12). -/
def Obligations.DecodeOfEncode : Prop :=
  ∀ (strict : Bool) (i : Instr), i.wellFormed strict = true → decode strict (encode i) = .ok i

/-- The instruction a word decodes to is well-formed and its word is that word, so no bit of an
accepted word is dropped (R83, R88; the fields kept are log entry 12). -/
def Obligations.EncodeOfDecode : Prop :=
  ∀ (strict : Bool) (w : Word) (i : Instr), decode strict w = .ok i →
    encode i = w ∧ i.wellFormed strict = true

/-- R88: re-packing the fields of a word at the positions of its format gives the word back; stated
for every word and each of the six formats (S and B have R's layout, J has U's). -/
def Obligations.RepackedFieldsGiveWord : Prop :=
  ∀ w : Word,
    packR (funct7Of w) (rs2Of w) (rs1Of w) (funct3Of w) (rdOf w) (opcodeOf w) = w ∧
    packI (immIOf w) (rs1Of w) (funct3Of w) (rdOf w) (opcodeOf w) = w ∧
    packU (immUOf w) (rdOf w) (opcodeOf w) = w ∧
    w.toNat = (opcodeOf w).toNat + 2 ^ 7 * (rdOf w).toNat + 2 ^ 12 * (funct3Of w).toNat +
      2 ^ 15 * (rs1Of w).toNat + 2 ^ 20 * (rs2Of w).toNat + 2 ^ 25 * (funct7Of w).toNat ∧
    (immIOf w).toNat = (rs2Of w).toNat + 2 ^ 5 * (funct7Of w).toNat ∧
    (immUOf w).toNat = (funct3Of w).toNat + 2 ^ 3 * (rs1Of w).toNat + 2 ^ 8 * (immIOf w).toNat

/-- R70: a word is rejected as an unknown opcode exactly if its opcode is none of the eleven
recognised ones (R69), and a step that fetches such a word raises UnknownOpcode of it: no register,
memory byte or PC changes and the run fails. -/
def Obligations.UnrecognisedOpcodeFails : Prop :=
  (∀ (strict : Bool) (w : Word),
    decode strict w = .error (.unknownOpcode w) ↔ opcodeOf w ∉ recognisedOpcodes) ∧
  ∀ (s : State) (w : Word), s.status = .running → fetch s = .ok w →
    opcodeOf w ∉ recognisedOpcodes → RaisesOn (step s) s (.unknownOpcode w)

/-- With STRICT_FUNCT7 = FALSE the decoder reads every word as the row of opcode_table.json that it
matches, and rejects exactly the words that match no row (R69, R78 to R83; the unexamined funct7 of
SLT and AND is the spec's decision D15). -/
def Obligations.DecoderFollowsOpcodeTable : Prop :=
  ∀ w : Word, rowOf w = (match decode false w with | .ok i => some (mnemonicOf i) | .error _ => none)

/-- R154, R159, R175: a step that fetches a load or store with funct3 3 to 7, or a branch with funct3
2 to 7, raises InvalidInstruction of that word, whatever the registers hold. -/
def Obligations.UnmappedFunct3Fails : Prop :=
  ∀ (s : State) (w : Word), s.status = .running → fetch s = .ok w → unmappedFunct3 w →
    RaisesOn (step s) s (.invalidInstruction w)

/-- A step that fetches an opcode 0x33 word whose funct3 and funct7 map to no instruction raises
InvalidInstruction of that word, whatever the registers hold (R115, R78, R226; which funct7 SLT and
AND take is the spec's decision D15). -/
def Obligations.UnmappedOpSelectorsFail : Prop :=
  ∀ (s : State) (w : Word), s.status = .running → fetch s = .ok w →
    unmappedOp s.params.strictFunct7 w → RaisesOn (step s) s (.invalidInstruction w)

/-- A few words of spec/95_test_vectors.md, one or more per family, decode to the instructions they
stand for. -/
def Obligations.SampleWordsDecode : Prop :=
  decode false 0x402081B3 = .ok (.sub 3 1 2) ∧
  decode false 0x0220A1B3 = .ok (.slt 3 1 2 0x01) ∧
  decode false 0xFE20F1AA = .ok (.lsgt 3 1 2 0x7 0x7F) ∧
  decode false 0x40415093 = .ok (.srai 1 2 4) ∧
  decode false 0x02415093 = .ok (.srli 1 2 4 0x01) ∧
  decode false 0xFFC32283 = .ok (.lw 5 6 0xFFC) ∧
  decode false 0xFE532E23 = .ok (.sw 6 5 0x7F 0x1C) ∧
  decode false 0xFE209CE3 = .ok (.bne 1 2 0x7F 0x19) ∧
  decode false 0x010000EF = .ok (.jal 1 0x01000) ∧
  decode false 0x00008067 = .ok (.jalrUnhandled 0 1 0 0) ∧
  decode false 0x123450B7 = .ok (.lui 1 0x12345) ∧
  decode false 0x30200073 = .ok (.ecall 0 0 0 0x302)

/-! ## Operand forms -/

/-- R11: sext_n, for n from 1 to 32, is the field's value if its top bit is 0 and 2^n less if it is 1. -/
def Obligations.SignExtendContract : Prop :=
  ∀ (n : Nat) (v : Word), 1 ≤ n → n ≤ 32 →
    (sextN n v).toInt =
      if v.getLsbD (n - 1) then (v.toNat % 2 ^ n : Int) - 2 ^ n else (v.toNat % 2 ^ n : Int)

/-- R71, R73, R74: the I-, S- and B-immediates of a word, as integers made of its fields, with their
ranges; the branch offset is even. -/
def Obligations.ImmediateFieldValues : Prop :=
  ∀ w : Word,
    ((immI (immIOf w)).toInt = (w.toInt.fdiv (2 ^ 20)) ∧
      -2048 ≤ (immI (immIOf w)).toInt ∧ (immI (immIOf w)).toInt ≤ 2047) ∧
    ((storeOffset (funct7Of w) (rdOf w)).toInt =
        (w.toInt.fdiv (2 ^ 25)) * 32 + (rdOf w).toNat ∧
      -2048 ≤ (storeOffset (funct7Of w) (rdOf w)).toInt ∧
      (storeOffset (funct7Of w) (rdOf w)).toInt ≤ 2047) ∧
    ((branchOffset (funct7Of w) (rdOf w)).toInt =
        -4096 * (w.extractLsb' 31 1).toNat + 2048 * (w.extractLsb' 7 1).toNat +
          32 * (w.extractLsb' 25 6).toNat + 2 * (w.extractLsb' 8 4).toNat ∧
      (branchOffset (funct7Of w) (rdOf w)).toInt % 2 = 0 ∧
      -4096 ≤ (branchOffset (funct7Of w) (rdOf w)).toInt ∧
      (branchOffset (funct7Of w) (rdOf w)).toInt ≤ 4094)

/-- The J-immediate of a word (the direction of the piece list is the spec's decision D29): its value
made of the word's bits, its range, and that it is even. -/
def Obligations.JumpOffsetValue : Prop :=
  ∀ w : Word,
    (jumpOffset (immUOf w)).toInt =
      -1048576 * (w.extractLsb' 31 1).toNat + 4096 * (w.extractLsb' 12 8).toNat +
        2048 * (w.extractLsb' 20 1).toNat + 2 * (w.extractLsb' 21 10).toNat ∧
    (jumpOffset (immUOf w)).toInt % 2 = 0 ∧
    -1048576 ≤ (jumpOffset (immUOf w)).toInt ∧ (jumpOffset (immUOf w)).toInt ≤ 1048574

/-! ## The step -/

/-- In a running state whose pc may be fetched from, when the four bytes at pc decode to an
instruction, that instruction is well-formed and step is exec of it; nothing is added around exec
(R253; fetch is the spec's decisions D1 to D3). -/
def Obligations.StepRunsDecodedBytes : Prop :=
  ∀ (s : State) (i : Instr) (rest : List Byte), s.status = .running →
    (s.params.fetchMisaligned = .fault → s.pc.toNat % 4 = 0) →
    s.pc.toNat + 4 ≤ s.params.memSize →
    decodeBytes s.params.strictFunct7 [s.mem.read s.pc.toNat, s.mem.read (s.pc.toNat + 1),
      s.mem.read (s.pc.toNat + 2), s.mem.read (s.pc.toNat + 3)] = .ok (i, rest) →
    i.wellFormed s.params.strictFunct7 = true ∧ rest = [] ∧ step s = exec i s

/-- The checks of a fetch and their order (R47, R44, R225; the spec's decisions D2, D3, D30): the
alignment under FETCH_MISALIGNED = FAULT, then the bounds, then the word is there. -/
def Obligations.FetchChecksInOrder : Prop :=
  ∀ s : State, s.status = .running →
    (s.params.fetchMisaligned = .fault → s.pc.toNat % 4 ≠ 0 →
      RaisesOn (step s) s (.misalignedFetch s.pc)) ∧
    ((s.params.fetchMisaligned = .permit ∨ s.pc.toNat % 4 = 0) →
      s.params.memSize < s.pc.toNat + 4 → RaisesOn (step s) s (.invalidRead s.pc)) ∧
    ((s.params.fetchMisaligned = .permit ∨ s.pc.toNat % 4 = 0) →
      s.pc.toNat + 4 ≤ s.params.memSize →
      fetch s = .ok (s.mem.read (s.pc.toNat + 3) ++ s.mem.read (s.pc.toNat + 2) ++
        s.mem.read (s.pc.toNat + 1) ++ s.mem.read s.pc.toNat))

/-- A step is taken only while STATUS = Running: in an ended run the model's step is the fault
runEnded, and only there (R31, R235, R253; that no step is a fault is log entry 9). -/
def Obligations.StepStopsWhenEnded : Prop :=
  ∀ (s : State) (f : Fault), step s = .fault f ↔ s.status ≠ .running ∧ f = .runEnded s.status

/-- Every step of a running state answers a next state, and no step is ever refused (R83, R256; that a
raise is a next state is log entry 8). -/
def Obligations.RunningStepCompletes : Prop :=
  (∀ s : State, s.status = .running → ∃ t, step s = .next t) ∧
  ∀ (s : State) (r : Refusal), step s ≠ .refused r

/-- The word a diagnostic of kind 1, 2, 3 or 8 records is the fetched word, for the reported case too
(R221, R222; the spec's decisions D13, D14, D17). -/
def Obligations.DiagnosticRecordsFetchedWord : Prop :=
  ∀ (s t : State) (w v : Word) (e : Err), fetch s = .ok w → step s = .next t →
    t.out = s.out ++ [.diag e] →
    e = .unknownOpcode v ∨ e = .invalidInstruction v ∨ e = .unhandledOpcode v ∨ e = .divideFault v →
    v = w

/-- A word stored by SW is what the next fetch at that address reads (R54, the spec's decision D26;
the fetch checks are D2 and D3). Memory is canonical. -/
def Obligations.FetchSeesEarlierStore : Prop :=
  ∀ (s t : State) (rs1 rs2 : RegIdx) (hi : BitVec 7) (lo : BitVec 5) (base v : Word),
    s.mem.wf → s.reg rs1 = .val base → s.reg rs2 = .val v →
    (storeAddress base hi lo).toNat % 4 = 0 →
    (storeAddress base hi lo).toNat + 4 ≤ s.params.memSize →
    exec (.sw rs1 rs2 hi lo) s = .next t →
    fetch (t.jump (storeAddress base hi lo)) = .ok v

/-! ## What instructions read and write -/

/-- The first register in an instruction's listed order that holds no value raises UnsetRegister of
it; ECALL reads x11 only for syscalls 1, 4 and 11 (R22, R23, R225; the spec's decisions D6, D30). -/
def Obligations.UnsetSourceRaises : Prop :=
  (∀ (i : Instr) (s : State) (r : RegIdx), (∀ rd rs1 f3 imm, i ≠ .ecall rd rs1 f3 imm) →
    i.reads.find? (fun j => s.reg j == .unset) = some r →
    RaisesOn (exec i s) s (.unsetRegister r)) ∧
  ∀ (s : State) (rd rs1 : RegIdx) (f3 : BitVec 3) (imm : BitVec 12),
    (s.reg 10 = .unset → RaisesOn (exec (.ecall rd rs1 f3 imm) s) s (.unsetRegister 10)) ∧
    ((s.reg 10 = .val 1 ∨ s.reg 10 = .val 4 ∨ s.reg 10 = .val 11) → s.reg 11 = .unset →
      RaisesOn (exec (.ecall rd rs1 f3 imm) s) s (.unsetRegister 11))

/-- A register an instruction does not read has no influence: two states that differ only there give
next states that differ at most there (R23). -/
def Obligations.UnreadRegisterIrrelevant : Prop :=
  ∀ (i : Instr) (s : State) (k : RegIdx) (c : RegCell), k ∉ i.reads →
    ∃ t t', exec i s = .next t ∧
      exec i { s with regs := s.regs.set k.toNat c k.isLt } = .next t' ∧
      (∀ j, j ≠ k → t'.reg j = t.reg j) ∧ t'.pc = t.pc ∧ t'.mem = t.mem ∧
      t'.status = t.status ∧ t'.out = t.out ∧ t'.draws = t.draws ∧ t'.params = t.params

/-- An instruction changes no general register but its destination; stores, branches, ECALL and the
two unhandled opcodes change none (R23, R140, R176, R192). -/
def Obligations.OnlyDestinationWritten : Prop :=
  ∀ (i : Instr) (s t : State), exec i s = .next t →
    ∀ j, i.dest ≠ some j → t.reg j = s.reg j

/-- Every instruction but SB, SH and SW leaves every byte of memory as it was (R23, R40, R48). -/
def Obligations.MemoryChangedOnlyByStores : Prop :=
  ∀ (i : Instr) (s t : State), i.stores = false → exec i s = .next t →
    ∀ a, t.mem.read a = s.mem.read a

/-! ## Register-register instructions -/

/-- R102, R103: ADD and SUB, modulo 2^32. -/
def Obligations.AddSubResults : Prop :=
  ∀ (strict : Bool) (s : State) (rd rs1 rs2 : RegIdx),
    decode strict (packR 0x00 rs2 rs1 0x0 rd 0x33) = .ok (.add rd rs1 rs2) ∧
    ReadsTwo (.add rd rs1 rs2) s rs1 rs2 (fun a b =>
      WritesOnly (exec (.add rd rs1 rs2) s) s rd (BitVec.ofNat 32 (a.toNat + b.toNat)) (s.pc + 4)) ∧
    decode strict (packR 0x20 rs2 rs1 0x0 rd 0x33) = .ok (.sub rd rs1 rs2) ∧
    ReadsTwo (.sub rd rs1 rs2) s rs1 rs2 (fun a b =>
      WritesOnly (exec (.sub rd rs1 rs2) s) s rd (BitVec.ofInt 32 (a.toNat - b.toNat : Int))
        (s.pc + 4))

/-- R106, R109: XOR and OR, bit by bit. -/
def Obligations.XorOrResults : Prop :=
  ∀ (strict : Bool) (s : State) (rd rs1 rs2 : RegIdx),
    decode strict (packR 0x00 rs2 rs1 0x4 rd 0x33) = .ok (.xor rd rs1 rs2) ∧
    ReadsTwo (.xor rd rs1 rs2) s rs1 rs2 (fun a b =>
      ∃ v, (∀ k, v.getLsbD k = (a.getLsbD k != b.getLsbD k)) ∧
        WritesOnly (exec (.xor rd rs1 rs2) s) s rd v (s.pc + 4)) ∧
    decode strict (packR 0x00 rs2 rs1 0x6 rd 0x33) = .ok (.or rd rs1 rs2) ∧
    ReadsTwo (.or rd rs1 rs2) s rs1 rs2 (fun a b =>
      ∃ v, (∀ k, v.getLsbD k = (a.getLsbD k || b.getLsbD k)) ∧
        WritesOnly (exec (.or rd rs1 rs2) s) s rd v (s.pc + 4))

/-- SLT, signed, and AND; funct7 is not examined unless STRICT_FUNCT7 is TRUE, and then it is 0x00
(R105, R110; the spec's decision D15). -/
def Obligations.SetLessAndResults : Prop :=
  ∀ (strict : Bool) (s : State) (rd rs1 rs2 : RegIdx) (f7 : BitVec 7),
    ((strict = false ∨ f7 = 0x00) →
      decode strict (packR f7 rs2 rs1 0x2 rd 0x33) = .ok (.slt rd rs1 rs2 f7) ∧
      decode strict (packR f7 rs2 rs1 0x7 rd 0x33) = .ok (.and rd rs1 rs2 f7)) ∧
    ReadsTwo (.slt rd rs1 rs2 f7) s rs1 rs2 (fun a b =>
      (a.toInt < b.toInt → WritesOnly (exec (.slt rd rs1 rs2 f7) s) s rd 1 (s.pc + 4)) ∧
      (b.toInt ≤ a.toInt → WritesOnly (exec (.slt rd rs1 rs2 f7) s) s rd 0 (s.pc + 4))) ∧
    ReadsTwo (.and rd rs1 rs2 f7) s rs1 rs2 (fun a b =>
      ∃ v, (∀ k, v.getLsbD k = (a.getLsbD k && b.getLsbD k)) ∧
        WritesOnly (exec (.and rd rs1 rs2 f7) s) s rd v (s.pc + 4))

/-- SLL, SRL and SRA by the low 5 bits of x[rs2] (R101, R104, R107, R108; the count is the spec's
decision D10): multiplication by, and division by, a power of two; SRA rounds down. -/
def Obligations.ShiftResults : Prop :=
  ∀ (strict : Bool) (s : State) (rd rs1 rs2 : RegIdx),
    decode strict (packR 0x00 rs2 rs1 0x1 rd 0x33) = .ok (.sll rd rs1 rs2) ∧
    ReadsTwo (.sll rd rs1 rs2) s rs1 rs2 (fun a b =>
      WritesOnly (exec (.sll rd rs1 rs2) s) s rd
        (BitVec.ofNat 32 (a.toNat * 2 ^ (b.toNat % 32))) (s.pc + 4)) ∧
    decode strict (packR 0x00 rs2 rs1 0x5 rd 0x33) = .ok (.srl rd rs1 rs2) ∧
    ReadsTwo (.srl rd rs1 rs2) s rs1 rs2 (fun a b =>
      WritesOnly (exec (.srl rd rs1 rs2) s) s rd
        (BitVec.ofNat 32 (a.toNat / 2 ^ (b.toNat % 32))) (s.pc + 4)) ∧
    decode strict (packR 0x20 rs2 rs1 0x5 rd 0x33) = .ok (.sra rd rs1 rs2) ∧
    ReadsTwo (.sra rd rs1 rs2) s rs1 rs2 (fun a b =>
      WritesOnly (exec (.sra rd rs1 rs2) s) s rd
        (BitVec.ofInt 32 (a.toInt.fdiv (2 ^ (b.toNat % 32)))) (s.pc + 4))

/-- MUL: the low 32 bits of the product (R111). That signed and unsigned readings of the operands give
the same value is the spec's own inference there, derived from R10. -/
def Obligations.MulResult : Prop :=
  ∀ (strict : Bool) (s : State) (rd rs1 rs2 : RegIdx),
    decode strict (packR 0x01 rs2 rs1 0x0 rd 0x33) = .ok (.mul rd rs1 rs2) ∧
    ReadsTwo (.mul rd rs1 rs2) s rs1 rs2 (fun a b =>
      BitVec.ofNat 32 (a.toNat * b.toNat) = BitVec.ofInt 32 (a.toInt * b.toInt) ∧
      WritesOnly (exec (.mul rd rs1 rs2) s) s rd (BitVec.ofNat 32 (a.toNat * b.toNat)) (s.pc + 4))

/-- MULH under each MULH_MODE (R112; the spec's decision D12): bits 62:31 of the 64-bit signed
product, or 32 copies of bit 31 of the low product. -/
def Obligations.MulhResult : Prop :=
  ∀ (strict : Bool) (s : State) (rd rs1 rs2 : RegIdx),
    decode strict (packR 0x01 rs2 rs1 0x1 rd 0x33) = .ok (.mulh rd rs1 rs2) ∧
    ReadsTwo (.mulh rd rs1 rs2) s rs1 rs2 (fun a b =>
      (s.params.mulhMode = .wide64 →
        WritesOnly (exec (.mulh rd rs1 rs2) s) s rd
          ((a.signExtend 64 * b.signExtend 64).extractLsb' 31 32) (s.pc + 4)) ∧
      (s.params.mulhMode = .narrow32 →
        WritesOnly (exec (.mulh rd rs1 rs2) s) s rd
          (if (a.toNat * b.toNat).testBit 31 then 0xFFFFFFFF else 0) (s.pc + 4)))

/-- DIV: the quotient rounded toward zero; in the two corner cases DivideFault of the word, or the
RISC-V values, by DIV_CORNER (R113; the spec's decision D13). -/
def Obligations.DivResult : Prop :=
  ∀ (strict : Bool) (s : State) (rd rs1 rs2 : RegIdx),
    decode strict (packR 0x01 rs2 rs1 0x4 rd 0x33) = .ok (.div rd rs1 rs2) ∧
    ReadsTwo (.div rd rs1 rs2) s rs1 rs2 (fun a b =>
      (¬ corner a b → ∃ q, truncatedQuotient a.toInt b.toInt q.toInt ∧
        WritesOnly (exec (.div rd rs1 rs2) s) s rd q (s.pc + 4)) ∧
      (corner a b → s.params.divCorner = .fault →
        RaisesOn (exec (.div rd rs1 rs2) s) s (.divideFault (packR 0x01 rs2 rs1 0x4 rd 0x33))) ∧
      (corner a b → s.params.divCorner = .riscv →
        WritesOnly (exec (.div rd rs1 rs2) s) s rd (if b = 0 then 0xFFFFFFFF else 0x80000000)
          (s.pc + 4)))

/-- REM: what the quotient rounded toward zero leaves over; corner cases as DIV (R114; the spec's
decision D13). -/
def Obligations.RemResult : Prop :=
  ∀ (strict : Bool) (s : State) (rd rs1 rs2 : RegIdx),
    decode strict (packR 0x01 rs2 rs1 0x6 rd 0x33) = .ok (.rem rd rs1 rs2) ∧
    ReadsTwo (.rem rd rs1 rs2) s rs1 rs2 (fun a b =>
      (¬ corner a b → ∃ (q : Int) (v : Word), truncatedQuotient a.toInt b.toInt q ∧
        v.toInt = a.toInt - b.toInt * q ∧
        WritesOnly (exec (.rem rd rs1 rs2) s) s rd v (s.pc + 4)) ∧
      (corner a b → s.params.divCorner = .fault →
        RaisesOn (exec (.rem rd rs1 rs2) s) s (.divideFault (packR 0x01 rs2 rs1 0x6 rd 0x33))) ∧
      (corner a b → s.params.divCorner = .riscv →
        WritesOnly (exec (.rem rd rs1 rs2) s) s rd (if b = 0 then a else 0) (s.pc + 4)))

/-! ## LSGT -/

/-- LSGT: the word at the address x[rs2] is written to rd only if x[rs1] is greater, by LSGT_COMPARE;
InvalidRead if the word is not in memory (R116, R79; the spec's decisions D3, D16). -/
def Obligations.LsgtResult : Prop :=
  ∀ (strict : Bool) (s : State) (rd rs1 rs2 : RegIdx) (f3 : BitVec 3) (f7 : BitVec 7),
    decode strict (packR f7 rs2 rs1 f3 rd 0x2A) = .ok (.lsgt rd rs1 rs2 f3 f7) ∧
    ReadsTwo (.lsgt rd rs1 rs2 f3 f7) s rs1 rs2 (fun a addr =>
      (addr.toNat + 4 ≤ s.params.memSize →
        let m := wordAt s addr.toNat
        let greater := (s.params.lsgtCompare = .signed ∧ m.toInt < a.toInt) ∨
          (s.params.lsgtCompare = .unsigned ∧ m.toNat < a.toNat)
        (greater → WritesOnly (exec (.lsgt rd rs1 rs2 f3 f7) s) s rd m (s.pc + 4)) ∧
        (¬ greater → MovesOnly (exec (.lsgt rd rs1 rs2 f3 f7) s) s (s.pc + 4))) ∧
      (s.params.memSize < addr.toNat + 4 →
        RaisesOn (exec (.lsgt rd rs1 rs2 f3 f7) s) s (.invalidRead addr)))

/-! ## Register-immediate instructions -/

/-- R131, R133: ADDI, modulo 2^32, and SLTI, signed. -/
def Obligations.AddSetLessImmediateResults : Prop :=
  ∀ (strict : Bool) (s : State) (rd rs1 : RegIdx) (imm : BitVec 12),
    decode strict (packI imm rs1 0x0 rd 0x13) = .ok (.addi rd rs1 imm) ∧
    ReadsOne (.addi rd rs1 imm) s rs1 (fun a =>
      WritesOnly (exec (.addi rd rs1 imm) s) s rd (BitVec.ofInt 32 (a.toInt + imm.toInt))
        (s.pc + 4)) ∧
    decode strict (packI imm rs1 0x2 rd 0x13) = .ok (.slti rd rs1 imm) ∧
    ReadsOne (.slti rd rs1 imm) s rs1 (fun a =>
      (a.toInt < imm.toInt → WritesOnly (exec (.slti rd rs1 imm) s) s rd 1 (s.pc + 4)) ∧
      (imm.toInt ≤ a.toInt → WritesOnly (exec (.slti rd rs1 imm) s) s rd 0 (s.pc + 4)))

/-- R134, R138, R139: XORI, ORI and ANDI, bit by bit with the sign-extended immediate. -/
def Obligations.LogicImmediateResults : Prop :=
  ∀ (strict : Bool) (s : State) (rd rs1 : RegIdx) (imm : BitVec 12),
    decode strict (packI imm rs1 0x4 rd 0x13) = .ok (.xori rd rs1 imm) ∧
    ReadsOne (.xori rd rs1 imm) s rs1 (fun a =>
      ∃ v, (∀ k, v.getLsbD k = (a.getLsbD k != immBit imm k)) ∧
        WritesOnly (exec (.xori rd rs1 imm) s) s rd v (s.pc + 4)) ∧
    decode strict (packI imm rs1 0x6 rd 0x13) = .ok (.ori rd rs1 imm) ∧
    ReadsOne (.ori rd rs1 imm) s rs1 (fun a =>
      ∃ v, (∀ k, v.getLsbD k = (a.getLsbD k || immBit imm k)) ∧
        WritesOnly (exec (.ori rd rs1 imm) s) s rd v (s.pc + 4)) ∧
    decode strict (packI imm rs1 0x7 rd 0x13) = .ok (.andi rd rs1 imm) ∧
    ReadsOne (.andi rd rs1 imm) s rs1 (fun a =>
      ∃ v, (∀ k, v.getLsbD k = (a.getLsbD k && immBit imm k)) ∧
        WritesOnly (exec (.andi rd rs1 imm) s) s rd v (s.pc + 4))

/-- SLLI, SRLI and SRAI by the signed 5-bit count taken modulo 32 (R72, R132, R135 to R137; the count
is the spec's decision D11); imm[11:5] selects SRAI if it is 0x20, any other value SRLI, and is not
examined by SLLI. -/
def Obligations.ShiftImmediateResults : Prop :=
  ∀ (strict : Bool) (s : State) (rd rs1 : RegIdx) (sh : BitVec 5) (upper : BitVec 7),
    let count : Nat := (sh.toInt % 32).toNat
    decode strict (packR upper sh rs1 0x1 rd 0x13) = .ok (.slli rd rs1 sh upper) ∧
    ReadsOne (.slli rd rs1 sh upper) s rs1 (fun a =>
      WritesOnly (exec (.slli rd rs1 sh upper) s) s rd
        (BitVec.ofNat 32 (a.toNat * 2 ^ count)) (s.pc + 4)) ∧
    (upper ≠ 0x20 →
      decode strict (packR upper sh rs1 0x5 rd 0x13) = .ok (.srli rd rs1 sh upper)) ∧
    ReadsOne (.srli rd rs1 sh upper) s rs1 (fun a =>
      WritesOnly (exec (.srli rd rs1 sh upper) s) s rd
        (BitVec.ofNat 32 (a.toNat / 2 ^ count)) (s.pc + 4)) ∧
    decode strict (packR 0x20 sh rs1 0x5 rd 0x13) = .ok (.srai rd rs1 sh) ∧
    ReadsOne (.srai rd rs1 sh) s rs1 (fun a =>
      WritesOnly (exec (.srai rd rs1 sh) s) s rd
        (BitVec.ofInt 32 (a.toInt.fdiv (2 ^ count))) (s.pc + 4))

/-- OPIMM-INVALID (R140, R222; the spec's decision D14): under CONTINUE the diagnostic of the word is
appended, rd takes the arbitrary value draw32() gives, the run goes on at pc + 4 and nothing else
changes, whatever x[rs1] holds; under FATAL it raises. Nothing is said of the drawn value; the count
of draws is the model's own (log entry 7). -/
def Obligations.InvalidOpImmEffect : Prop :=
  ∀ (strict : Bool) (s : State) (rd rs1 : RegIdx) (imm : BitVec 12),
    let w := packI imm rs1 0x3 rd 0x13
    decode strict w = .ok (.opimmInvalid rd rs1 imm) ∧
    (s.params.opimmInvalid = .goOn → ∃ t, exec (.opimmInvalid rd rs1 imm) s = .next t ∧
      (∀ j, t.reg j = regAfter s rd (Config.draw32 s.draws) j) ∧
      (∀ a, t.mem.read a = s.mem.read a) ∧ t.pc = s.pc + 4 ∧
      t.out = s.out ++ [.diag (.invalidInstruction w)] ∧ t.status = s.status ∧
      t.draws = s.draws + 1 ∧ t.params = s.params) ∧
    (s.params.opimmInvalid = .fatal →
      RaisesOn (exec (.opimmInvalid rd rs1 imm) s) s (.invalidInstruction w))

/-! ## Loads and stores -/

/-- R150 to R153: LB, LH and LW: the bytes at x[rs1] + sext_12(imm), modulo 2^32, little-endian,
sign-extended, at any alignment; InvalidRead of that address if they are not all in memory. (The
modulo and the bounds check are also stated apart as the spec's decisions D9 and D3.) -/
def Obligations.LoadResults : Prop :=
  ∀ (strict : Bool) (s : State) (rd rs1 : RegIdx) (imm : BitVec 12),
    decode strict (packI imm rs1 0x0 rd 0x03) = .ok (.lb rd rs1 imm) ∧
    ReadsOne (.lb rd rs1 imm) s rs1 (fun base =>
      let ea : Word := BitVec.ofInt 32 (base.toNat + imm.toInt)
      (ea.toNat + 1 ≤ s.params.memSize → WritesOnly (exec (.lb rd rs1 imm) s) s rd
        ((s.mem.read ea.toNat).signExtend 32) (s.pc + 4)) ∧
      (s.params.memSize < ea.toNat + 1 →
        RaisesOn (exec (.lb rd rs1 imm) s) s (.invalidRead ea))) ∧
    decode strict (packI imm rs1 0x1 rd 0x03) = .ok (.lh rd rs1 imm) ∧
    ReadsOne (.lh rd rs1 imm) s rs1 (fun base =>
      let ea : Word := BitVec.ofInt 32 (base.toNat + imm.toInt)
      (ea.toNat + 2 ≤ s.params.memSize → WritesOnly (exec (.lh rd rs1 imm) s) s rd
        ((s.mem.read (ea.toNat + 1) ++ s.mem.read ea.toNat).signExtend 32) (s.pc + 4)) ∧
      (s.params.memSize < ea.toNat + 2 →
        RaisesOn (exec (.lh rd rs1 imm) s) s (.invalidRead ea))) ∧
    decode strict (packI imm rs1 0x2 rd 0x03) = .ok (.lw rd rs1 imm) ∧
    ReadsOne (.lw rd rs1 imm) s rs1 (fun base =>
      let ea : Word := BitVec.ofInt 32 (base.toNat + imm.toInt)
      (ea.toNat + 4 ≤ s.params.memSize → WritesOnly (exec (.lw rd rs1 imm) s) s rd
        (wordAt s ea.toNat) (s.pc + 4)) ∧
      (s.params.memSize < ea.toNat + 4 →
        RaisesOn (exec (.lw rd rs1 imm) s) s (.invalidRead ea)))

/-- R155 to R157, and SW of R158: SB, SH and SW: the low 1, 2 or 4 bytes of x[rs2] at x[rs1] +
store_offset, modulo 2^32, little-endian, at any alignment, every other byte as before; InvalidWrite
of that address and no byte changed if they are not all in memory (D9, D3 as for loads). Memory is
canonical (`StepKeepsInvariants`). -/
def Obligations.StoreResults : Prop :=
  ∀ (strict : Bool) (s : State) (rs1 rs2 : RegIdx) (hi : BitVec 7) (lo : BitVec 5),
    decode strict (packR hi rs2 rs1 0x0 lo 0x23) = .ok (.sb rs1 rs2 hi lo) ∧
    decode strict (packR hi rs2 rs1 0x1 lo 0x23) = .ok (.sh rs1 rs2 hi lo) ∧
    decode strict (packR hi rs2 rs1 0x2 lo 0x23) = .ok (.sw rs1 rs2 hi lo) ∧
    ∀ (i : Instr) (n : Nat),
      (i, n) ∈ [(Instr.sb rs1 rs2 hi lo, 1), (.sh rs1 rs2 hi lo, 2), (.sw rs1 rs2 hi lo, 4)] →
      ReadsTwo i s rs1 rs2 (fun base v =>
        let ea : Word := BitVec.ofInt 32 (base.toNat + (hi ++ lo).toInt)
        (s.mem.wf → ea.toNat + n ≤ s.params.memSize → StoresOnly (exec i s) s ea.toNat n v) ∧
        (s.params.memSize < ea.toNat + n → RaisesOn (exec i s) s (.invalidWrite ea)))

/-- A store of 4 bytes, then a load of 4 bytes from the same address, gives the value back; the same
for 1 and 2 bytes up to sign extension (R160, the second half derived there). Memory is canonical. -/
def Obligations.StoreThenLoadGivesValueBack : Prop :=
  ∀ (s : State) (a v : Word) (k : Word → Result), s.mem.wf →
    (a.toNat + 4 ≤ s.params.memSize →
      withStore s a 4 v (fun t => withLoad t a 4 k) = k v) ∧
    (a.toNat + 1 ≤ s.params.memSize →
      withStore s a 1 v (fun t => withLoad t a 1 fun m => k (sextN 8 m)) =
        k ((v.extractLsb' 0 8).signExtend 32)) ∧
    (a.toNat + 2 ≤ s.params.memSize →
      withStore s a 2 v (fun t => withLoad t a 2 fun m => k (sextN 16 m)) =
        k ((v.extractLsb' 0 16).signExtend 32))

/-! ## Control transfer and upper immediates -/

/-- R171: BEQ and BNE: pc plus the branch offset of the word when taken, pc + 4 when not, modulo 2^32;
nothing else changes. BEQ is taken if the registers are equal, BNE if not (R173, R174; what the next
fetch at the target does is `FetchChecksInOrder`). -/
def Obligations.BranchResults : Prop :=
  ∀ (strict : Bool) (s : State) (rs1 rs2 : RegIdx) (hi : BitVec 7) (lo : BitVec 5),
    let target (w : Word) : Word := s.pc + (w.extractLsb' 31 1 ++ w.extractLsb' 7 1 ++
      w.extractLsb' 25 6 ++ w.extractLsb' 8 4 ++ 0#1).signExtend 32
    let wEq := packR hi rs2 rs1 0x0 lo 0x63
    let wNe := packR hi rs2 rs1 0x1 lo 0x63
    decode strict wEq = .ok (.beq rs1 rs2 hi lo) ∧
    ReadsTwo (.beq rs1 rs2 hi lo) s rs1 rs2 (fun a b =>
      (a = b → MovesOnly (exec (.beq rs1 rs2 hi lo) s) s (target wEq)) ∧
      (a ≠ b → MovesOnly (exec (.beq rs1 rs2 hi lo) s) s (s.pc + 4))) ∧
    decode strict wNe = .ok (.bne rs1 rs2 hi lo) ∧
    ReadsTwo (.bne rs1 rs2 hi lo) s rs1 rs2 (fun a b =>
      (a ≠ b → MovesOnly (exec (.bne rs1 rs2 hi lo) s) s (target wNe)) ∧
      (a = b → MovesOnly (exec (.bne rs1 rs2 hi lo) s) s (s.pc + 4)))

/-- JAL: pc + 4 in rd, pc plus the jump offset of the word; no further advance, no fault (R172; the
reading of the offset's pieces is the spec's decision D29). -/
def Obligations.JumpAndLinkResult : Prop :=
  ∀ (strict : Bool) (s : State) (rd : RegIdx) (imm : BitVec 20),
    let w := packU imm rd 0x6F
    decode strict w = .ok (.jal rd imm) ∧
    WritesOnly (exec (.jal rd imm) s) s rd (s.pc + 4)
      (s.pc + (w.extractLsb' 31 1 ++ w.extractLsb' 12 8 ++ w.extractLsb' 20 1 ++
        w.extractLsb' 21 10 ++ 0#1).signExtend 32)

/-- Opcodes 0x67 and 0x17 decode and always raise UnhandledOpcode of the word, whatever their fields
and the registers hold (R176, R192; the spec's decision D17). -/
def Obligations.UnhandledOpcodesRaise : Prop :=
  ∀ (strict : Bool) (s : State) (rd rs1 : RegIdx) (f3 : BitVec 3) (imm : BitVec 12)
      (imm20 : BitVec 20),
    decode strict (packI imm rs1 f3 rd 0x67) = .ok (.jalrUnhandled rd rs1 f3 imm) ∧
    RaisesOn (exec (.jalrUnhandled rd rs1 f3 imm) s) s
      (.unhandledOpcode (packI imm rs1 f3 rd 0x67)) ∧
    decode strict (packU imm20 rd 0x17) = .ok (.auipcUnhandled rd imm20) ∧
    RaisesOn (exec (.auipcUnhandled rd imm20) s) s (.unhandledOpcode (packU imm20 rd 0x17))

/-- LUI: the sign-extended immediate shifted left by 12; no fault (R190). That this is the immediate in
the upper 20 bits and 0 in the low 12 is the spec's own inference there, derived from R76. -/
def Obligations.LoadUpperResult : Prop :=
  ∀ (strict : Bool) (s : State) (rd : RegIdx) (imm : BitVec 20),
    decode strict (packU imm rd 0x37) = .ok (.lui rd imm) ∧
    BitVec.ofInt 32 (imm.toInt * 2 ^ 12) = imm ++ 0#12 ∧
    WritesOnly (exec (.lui rd imm) s) s rd (BitVec.ofInt 32 (imm.toInt * 2 ^ 12)) (s.pc + 4)

/-- LUI with hi = (v + 0x800)[31:12], then ADDI with lo = v[11:0], puts any v in rd (R191, derived
there), for every rd that takes writes. -/
def Obligations.LuiThenAddiBuildsConstant : Prop :=
  ∀ (s : State) (rd : RegIdx) (v : Word),
    ¬ (s.params.x0Policy = .discard ∧ rd = 0) →
    ∃ t u, exec (.lui rd ((v + 0x800).extractLsb' 12 20)) s = .next t ∧
      exec (.addi rd rd (v.extractLsb' 0 12)) t = .next u ∧
      u.reg rd = .val v ∧ u.pc = s.pc + 8

/-! ## ECALL -/

/-- Syscall 1 prints x11 as a signed decimal integer: a minus sign only if it is negative, then its
digits, and nothing after (R200 to R202; the spec's decisions D18, D19). -/
def Obligations.PrintIntegerEffect : Prop :=
  ∀ (s : State) (rd rs1 : RegIdx) (f3 : BitVec 3) (imm : BitVec 12) (a : Word),
    s.reg 10 = .val 1 → s.reg 11 = .val a →
    ∃ digits, decimalDigits digits a.toInt.natAbs ∧
      PrintsOnly (exec (.ecall rd rs1 f3 imm) s) s
        ((if a.toInt < 0 then [0x2D] else []) ++ digits)

/-- Syscall 4 prints the bytes from address x11 up, stopping at the first zero byte or at the end of
memory, and prints nothing if x11 is not below N (R203, R56; the spec's decision D20). -/
def Obligations.PrintStringEffect : Prop :=
  ∀ (s : State) (rd rs1 : RegIdx) (f3 : BitVec 3) (imm : BitVec 12) (a : Word),
    s.reg 10 = .val 4 → s.reg 11 = .val a →
    ∃ n, PrintsOnly (exec (.ecall rd rs1 f3 imm) s) s
        ((List.range n).map fun k => s.mem.read (a.toNat + k)) ∧
      (∀ k, k < n → s.mem.read (a.toNat + k) ≠ 0) ∧
      (n = 0 ∨ a.toNat + n ≤ s.params.memSize) ∧
      (s.params.memSize ≤ a.toNat + n ∨ s.mem.read (a.toNat + n) = 0)

/-- Syscall 10 prints the exit banner and ends the run in Exited(0), exit status 0, pc unchanged,
without reading x11 (R204, R31; the banner is open, the spec's decision D22, log entry 6). -/
def Obligations.ExitEffect : Prop :=
  ∀ (s : State) (rd rs1 : RegIdx) (f3 : BitVec 3) (imm : BitVec 12), s.reg 10 = .val 10 →
    ∃ t, exec (.ecall rd rs1 f3 imm) s = .next t ∧ (∀ j, t.reg j = s.reg j) ∧
      (∀ a, t.mem.read a = s.mem.read a) ∧ t.pc = s.pc ∧
      t.out = s.out ++ s.params.exitBanner.map .console ∧ t.status = .exited ∧
      t.exitStatus = some 0 ∧ t.draws = s.draws ∧ t.params = s.params

/-- Syscall 11 prints one byte, the low 8 bits of x11 (R205; the spec's decision D21). -/
def Obligations.PrintCharacterEffect : Prop :=
  ∀ (s : State) (rd rs1 : RegIdx) (f3 : BitVec 3) (imm : BitVec 12) (a : Word),
    s.reg 10 = .val 11 → s.reg 11 = .val a →
    PrintsOnly (exec (.ecall rd rs1 f3 imm) s) s [BitVec.ofNat 8 (a.toNat % 256)]

/-- Any other syscall number raises IllegalSyscall of the whole of x10 (R206, R201; that the whole of
x10 is the number is the spec's decision D18). -/
def Obligations.IllegalSyscallRaises : Prop :=
  ∀ (s : State) (rd rs1 : RegIdx) (f3 : BitVec 3) (imm : BitVec 12) (n : Word),
    s.reg 10 = .val n → n ∉ ([1, 4, 10, 11] : List Word) →
    RaisesOn (exec (.ecall rd rs1 f3 imm) s) s (.illegalSyscall n)

/-! ## The whole machine -/

/-- Every step keeps the invariant `State.Inv`: the parameters in their ranges, memory canonical and
within 0 to N-1, and x0 = 0 under X0_POLICY = DISCARD (R8, R21, R22, R30; the spec's decision D5; the
canonical form is the model's, log entry 4). -/
def Obligations.StepKeepsInvariants : Prop :=
  ∀ s t : State, s.Inv → step s = .next t → t.Inv

/-- The state after reset meets the invariant (its values are the model's, log entries 1 to 6). -/
def Obligations.ResetMeetsInvariants : Prop := State.reset.Inv

/-- What a launch leaves (R35, R250): STATUS Running, OUT empty, the caller's PC, memory and
registers, but 0 in x0 under X0_POLICY = DISCARD; and it meets the invariant for all launch inputs in
their ranges. -/
def Obligations.LaunchState : Prop :=
  ∀ (p : Config.Params) (pc : Word) (regs : Vector RegCell 32) (mem : Memory),
    let s := State.launch p pc regs mem
    s.status = .running ∧ s.out = [] ∧ s.pc = pc ∧ s.mem = mem ∧ s.params = p ∧
    (∀ j, s.reg j = if p.x0Policy = .discard ∧ j = 0 then .val 0 else regs[j.toNat]'j.isLt) ∧
    (p.wf → mem.wf → (∀ c ∈ mem, c.1 < p.memSize) → s.Inv)

/-- A step from an even pc leads to an even pc: branch and jump targets are even (R177). -/
def Obligations.PcStaysEven : Prop :=
  ∀ s t : State, s.pc.toNat % 2 = 0 → step s = .next t → t.pc.toNat % 2 = 0

/-- Under X0_POLICY = DISCARD no step changes x0 (R21, R22; the spec's decision D5). -/
def Obligations.X0KeptUnderDiscard : Prop :=
  ∀ s t : State, s.params.x0Policy = .discard → step s = .next t → t.reg 0 = s.reg 0

/-- No step removes an event from the output stream (R32) or changes the parameters (R34, log
entry 5). -/
def Obligations.OutputOnlyGrows : Prop :=
  ∀ s t : State, step s = .next t → (∃ events, t.out = s.out ++ events) ∧ t.params = s.params

/-- A step that fails the run leaves X, PC and MEM as they were and appends exactly one event, the
diagnostic of its error (R220, R227; the spec's decisions D23, D25). -/
def Obligations.FailedStepIsPrecise : Prop :=
  ∀ (s t : State) (e : Err), step s = .next t → t.status = .failed e →
    RaisesOn (step s) s e

/-- A run of running steps that reaches Exited(0) did so in its last step, an ECALL with 10 in x10
(R31, R204, R254; the spec's decision D27). -/
def Obligations.RunEndsOnlyByExitSyscall : Prop :=
  ∀ (k : Nat) (s t : State), s.status = .running → Host.Core.run core k s = .next t →
    t.status = .exited →
    ∃ (j : Nat) (u : State) (rd rs1 : RegIdx) (f3 : BitVec 3) (imm : BitVec 12),
      k = j + 1 ∧ Host.Core.run core j s = .next u ∧ u.status = .running ∧
      fetchDecode u = .ok (.ecall rd rs1 f3 imm) ∧ u.reg 10 = .val 10 ∧ step u = .next t

/-- Only OPIMM-INVALID looks at the arbitrary values: for every other instruction at pc, and for every
raise of fetch and decode, the step from a state with another count of draws gives the same next
state but for that count, which it leaves alone (R256; the count is the model's own, log entry 7). -/
def Obligations.DrawsOnlyMatterToInvalidOpImm : Prop :=
  ∀ (s : State) (n : Nat), s.status = .running →
    (∀ rd rs1 imm, fetchDecode s ≠ .ok (.opimmInvalid rd rs1 imm)) →
    ∃ t, step s = .next t ∧ t.draws = s.draws ∧
      step { s with draws := n } = .next { t with draws := n }
end

