-- ==== Sys2Proof/Laws/Memory.lean ====
section
/-! SUPPORT. The laws of the byte memory: a write keeps the canonical form, gives its byte back and
leaves every other byte alone; the same for a store of n bytes; and what a load is made of. -/

namespace Sys2Proof.Machine

/-! ## One byte -/

theorem Memory.read_entry (a b : Nat) (v : Byte) (m : Memory) (h : a ≠ b) :
    (Memory.entry a v m).read b = m.read b := by
  unfold Memory.entry; split
  · rfl
  · simp [Memory.read, h]

/-- A write leaves every other byte alone, in any memory. -/
theorem Memory.read_write_of_ne (m : Memory) (a b : Nat) (v : Byte) (h : b ≠ a) :
    (m.write a v).read b = m.read b := by
  induction m with
  | nil => exact Memory.read_entry a b v [] h.symm
  | cons c m ih =>
    obtain ⟨k, w⟩ := c
    simp only [Memory.write]
    split
    · exact Memory.read_entry a b v _ h.symm
    · split
      · next hk => subst hk; rw [Memory.read_entry _ _ _ _ h.symm]; simp [Memory.read, h.symm]
      · simp only [Memory.read, ih]

/-- Below the first listed address every byte is unlisted. -/
theorem Memory.read_of_lt {m : Memory} {a : Nat} (h : ∀ c ∈ m, a < c.1) :
    m.read a = Config.unlistedByte := by
  induction m with
  | nil => rfl
  | cons c m ih =>
    obtain ⟨k, w⟩ := c
    have hk : a < k := h (k, w) (by simp)
    simp [Memory.read, Nat.ne_of_gt hk, ih fun c hc => h c (by simp [hc])]

theorem Memory.read_entry_self {m : Memory} {a : Nat} (v : Byte) (h : ∀ c ∈ m, a < c.1) :
    (Memory.entry a v m).read a = v := by
  unfold Memory.entry; split
  · next hv => rw [Memory.read_of_lt h, hv]
  · simp [Memory.read]

/-- A canonical memory gives a written byte back. -/
theorem Memory.read_write_self {m : Memory} (hm : m.wf) (a : Nat) (v : Byte) :
    (m.write a v).read a = v := by
  induction m with
  | nil => exact Memory.read_entry_self v (by simp)
  | cons c m ih =>
    obtain ⟨k, w⟩ := c
    obtain ⟨hp, hv⟩ := hm
    rw [List.pairwise_cons] at hp
    simp only [Memory.write]
    split
    · next hak =>
      refine Memory.read_entry_self v fun c hc => ?_
      rcases List.mem_cons.1 hc with rfl | hc
      · exact hak
      · exact Nat.lt_trans hak (hp.1 c hc)
    · split
      · next hk => subst hk; exact Memory.read_entry_self v hp.1
      · next hk =>
        simp [Memory.read, Ne.symm hk, ih ⟨hp.2, fun c hc => hv c (by simp [hc])⟩]

theorem Memory.mem_write {m : Memory} {a : Nat} {v : Byte} {c : Host.Cell}
    (h : c ∈ m.write a v) : c ∈ m ∨ (c = (a, v) ∧ v ≠ Config.unlistedByte) := by
  have entry : ∀ m : Memory, c ∈ Memory.entry a v m →
      c ∈ m ∨ (c = (a, v) ∧ v ≠ Config.unlistedByte) := by
    intro m h
    unfold Memory.entry at h; split at h
    · exact .inl h
    · next hv => exact (List.mem_cons.1 h).elim (fun h => .inr ⟨h, hv⟩) .inl
  induction m with
  | nil => exact entry [] h
  | cons d m ih =>
    obtain ⟨k, w⟩ := d
    simp only [Memory.write] at h
    split at h
    · exact entry _ h
    · split at h
      · exact (entry _ h).imp_left fun h => List.mem_cons_of_mem _ h
      · rcases List.mem_cons.1 h with rfl | h
        · exact .inl (by simp)
        · exact (ih h).imp_left fun h => List.mem_cons_of_mem _ h

/-- A write keeps the canonical form. -/
theorem Memory.wf_write {m : Memory} (hm : m.wf) (a : Nat) (v : Byte) : (m.write a v).wf := by
  refine ⟨?_, fun c hc => ?_⟩
  · have entry : ∀ m : Memory, m.Pairwise (fun c d => c.1 < d.1) → (∀ c ∈ m, a < c.1) →
        (Memory.entry a v m).Pairwise (fun c d => c.1 < d.1) := by
      intro m hp hlt
      unfold Memory.entry; split
      · exact hp
      · exact List.pairwise_cons.2 ⟨hlt, hp⟩
    obtain ⟨hp, -⟩ := hm
    induction m with
    | nil => exact entry [] hp (by simp)
    | cons c m ih =>
      obtain ⟨k, w⟩ := c
      have hc := List.pairwise_cons.1 hp
      simp only [Memory.write]
      split
      · next hak =>
        refine entry _ hp fun c h => ?_
        rcases List.mem_cons.1 h with rfl | h
        · exact hak
        · exact Nat.lt_trans hak (hc.1 c h)
      · next hka =>
        split
        · next hk => subst hk; exact entry m hc.2 hc.1
        · next hk =>
          refine List.pairwise_cons.2 ⟨fun d hd => ?_, ih hc.2⟩
          rcases Memory.mem_write hd with hd | ⟨rfl, -⟩
          · exact hc.1 d hd
          · exact Nat.lt_of_le_of_ne (Nat.not_lt.1 hka) (Ne.symm hk)
  · rcases Memory.mem_write hc with hc | ⟨rfl, hv⟩
    · exact hm.2 c hc
    · exact hv

/-- The memory at reset is canonical. -/
theorem State.reset_mem_wf : State.reset.mem.wf := by decide

/-! ## n bytes -/

/-- A store keeps the canonical form. -/
theorem Memory.wf_store {m : Memory} (hm : m.wf) (a n : Nat) (v : Word) : (m.store a n v).wf := by
  induction n generalizing m a v with
  | zero => exact hm
  | succ n ih => exact ih (Memory.wf_write hm a _) (a + 1) _

/-- A store lists no address beyond those listed before and the n it stores to. -/
theorem Memory.mem_store {m : Memory} {a n : Nat} {v : Word} {c : Host.Cell}
    (h : c ∈ m.store a n v) : c ∈ m ∨ (a ≤ c.1 ∧ c.1 < a + n) := by
  induction n generalizing m a v with
  | zero => exact .inl h
  | succ n ih =>
    rcases ih h with h | h
    · rcases Memory.mem_write h with h | ⟨rfl, -⟩
      · exact .inl h
      · exact .inr ⟨Nat.le_refl _, by simp⟩
    · exact .inr (by omega)

/-- A store leaves every byte outside its n bytes alone, in any memory. -/
theorem Memory.read_store_outside (m : Memory) (a n : Nat) (v : Word) (b : Nat)
    (h : b < a ∨ a + n ≤ b) : (m.store a n v).read b = m.read b := by
  induction n generalizing m a v with
  | zero => rfl
  | succ n ih =>
    rw [Memory.store, ih _ _ _ (by omega), Memory.read_write_of_ne _ _ _ _ (by omega)]

/-- In a canonical memory, byte k of a store reads back as byte k of the stored value (R42). -/
theorem Memory.read_store_inside {m : Memory} (hm : m.wf) (a n : Nat) (v : Word) (k : Nat)
    (h : k < n) : (m.store a n v).read (a + k) = (v >>> (8 * k)).setWidth 8 := by
  induction n generalizing m a v k with
  | zero => omega
  | succ n ih =>
    rw [Memory.store]
    cases k with
    | zero =>
      rw [Memory.read_store_outside _ _ _ _ _ (by omega)]
      simpa using Memory.read_write_self hm a _
    | succ k =>
      have := ih (Memory.wf_write hm a (v.setWidth 8)) (a + 1) (v >>> 8) k (by omega)
      rw [show a + (k + 1) = a + 1 + k by omega, this, ← BitVec.shiftRight_add,
        show 8 + 8 * k = 8 * (k + 1) by omega]

/-- A load depends only on the bytes it reads. -/
theorem Memory.load_congr {m m' : Memory} {a n : Nat}
    (h : ∀ b, a ≤ b → b < a + n → m'.read b = m.read b) : m'.load a n = m.load a n := by
  induction n generalizing a with
  | zero => rfl
  | succ n ih =>
    rw [Memory.load, Memory.load, h a (Nat.le_refl _) (by omega),
      ih fun b h1 h2 => h b (by omega) (by omega)]

/-- Bit j of a load of n bytes is bit j mod 8 of the byte j / 8 above the address (R42). -/
theorem Memory.getLsbD_load (m : Memory) (a n j : Nat) (hj : j < 32) :
    (m.load a n).getLsbD j = (decide (j < 8 * n) && (m.read (a + j / 8)).getLsbD (j % 8)) := by
  induction n generalizing a j with
  | zero => simp [Memory.load]
  | succ n ih =>
    rw [Memory.load, BitVec.getLsbD_or, BitVec.getLsbD_setWidth, BitVec.getLsbD_shiftLeft]
    by_cases h8 : j < 8
    · simp [h8, hj, Nat.div_eq_of_lt h8, Nat.mod_eq_of_lt h8, show j < 8 * (n + 1) by omega]
    · have hhi : (m.read a).getLsbD j = false := BitVec.getLsbD_of_ge _ _ (by omega)
      rw [hhi, ih (a + 1) (j - 8) (by omega)]
      have h1 : a + 1 + (j - 8) / 8 = a + j / 8 := by omega
      have h2 : (j - 8) % 8 = j % 8 := by omega
      have h3 : decide (j - 8 < 8 * n) = decide (j < 8 * (n + 1)) := by
        apply decide_eq_decide.2; omega
      simp [h8, hj, h1, h2, h3]

/-- The word a load of four bytes gives is the one its bytes make (R42, R47). -/
theorem Memory.load_four (m : Memory) (a : Nat) :
    m.load a 4 = wordOfBytes (m.read a) (m.read (a + 1)) (m.read (a + 2)) (m.read (a + 3)) := by
  apply BitVec.eq_of_getLsbD_eq
  intro j hj
  rw [Memory.getLsbD_load _ _ _ _ hj]
  simp only [wordOfBytes, BitVec.getLsbD_append]
  interval_cases j <;> simp

end Sys2Proof.Machine
end

