-- ==== Sys2Proof/Laws/State.lean ====
section
/-! SUPPORT. One lemma per field per update of the state, so that no later proof unfolds a record
update; and what a register holds after a register write (R21). -/

namespace Sys2Proof.Machine

/-- FAIL_STATUS at reset is in its range (R8), whatever the open constant behind it is. -/
theorem failStatus_ne_zero : Config.failStatus ≠ 0 := by
  unfold Config.failStatus
  split
  · simp only [Int.ofNat_eq_natCast]; omega
  · exact Int.negSucc_ne_zero _

/-! ## advance -/

@[simp] theorem State.advance_regs (s : State) : s.advance.regs = s.regs := rfl
@[simp] theorem State.advance_pc (s : State) : s.advance.pc = s.pc + 4 := rfl
@[simp] theorem State.advance_mem (s : State) : s.advance.mem = s.mem := rfl
@[simp] theorem State.advance_status (s : State) : s.advance.status = s.status := rfl
@[simp] theorem State.advance_out (s : State) : s.advance.out = s.out := rfl
@[simp] theorem State.advance_draws (s : State) : s.advance.draws = s.draws := rfl
@[simp] theorem State.advance_params (s : State) : s.advance.params = s.params := rfl
@[simp] theorem State.advance_reg (s : State) (i : RegIdx) :
    s.advance.reg i = s.reg i := rfl

/-! ## jump -/

@[simp] theorem State.jump_regs (s : State) (a : Word) : (s.jump a).regs = s.regs := rfl
@[simp] theorem State.jump_pc (s : State) (a : Word) : (s.jump a).pc = a := rfl
@[simp] theorem State.jump_mem (s : State) (a : Word) : (s.jump a).mem = s.mem := rfl
@[simp] theorem State.jump_status (s : State) (a : Word) : (s.jump a).status = s.status := rfl
@[simp] theorem State.jump_out (s : State) (a : Word) : (s.jump a).out = s.out := rfl
@[simp] theorem State.jump_draws (s : State) (a : Word) : (s.jump a).draws = s.draws := rfl
@[simp] theorem State.jump_params (s : State) (a : Word) : (s.jump a).params = s.params := rfl
@[simp] theorem State.jump_reg (s : State) (a : Word) (i : RegIdx) :
    (s.jump a).reg i = s.reg i := rfl

/-! ## raise -/

@[simp] theorem State.raise_regs (s : State) (e : Err) : (s.raise e).regs = s.regs := rfl
@[simp] theorem State.raise_pc (s : State) (e : Err) : (s.raise e).pc = s.pc := rfl
@[simp] theorem State.raise_mem (s : State) (e : Err) : (s.raise e).mem = s.mem := rfl
@[simp] theorem State.raise_status (s : State) (e : Err) : (s.raise e).status = .failed e := rfl
@[simp] theorem State.raise_out (s : State) (e : Err) : (s.raise e).out = s.out ++ [.diag e] := rfl
@[simp] theorem State.raise_draws (s : State) (e : Err) : (s.raise e).draws = s.draws := rfl
@[simp] theorem State.raise_params (s : State) (e : Err) : (s.raise e).params = s.params := rfl
@[simp] theorem State.raise_reg (s : State) (e : Err) (i : RegIdx) :
    (s.raise e).reg i = s.reg i := rfl

/-! ## report -/

@[simp] theorem State.report_regs (s : State) (e : Err) : (s.report e).regs = s.regs := rfl
@[simp] theorem State.report_pc (s : State) (e : Err) : (s.report e).pc = s.pc := rfl
@[simp] theorem State.report_mem (s : State) (e : Err) : (s.report e).mem = s.mem := rfl
@[simp] theorem State.report_status (s : State) (e : Err) : (s.report e).status = s.status := rfl
@[simp] theorem State.report_out (s : State) (e : Err) : (s.report e).out = s.out ++ [.diag e] := rfl
@[simp] theorem State.report_draws (s : State) (e : Err) : (s.report e).draws = s.draws := rfl
@[simp] theorem State.report_params (s : State) (e : Err) : (s.report e).params = s.params := rfl
@[simp] theorem State.report_reg (s : State) (e : Err) (i : RegIdx) :
    (s.report e).reg i = s.reg i := rfl

/-! ## emit -/

@[simp] theorem State.emit_regs (s : State) (bs : List Byte) : (s.emit bs).regs = s.regs := rfl
@[simp] theorem State.emit_pc (s : State) (bs : List Byte) : (s.emit bs).pc = s.pc := rfl
@[simp] theorem State.emit_mem (s : State) (bs : List Byte) : (s.emit bs).mem = s.mem := rfl
@[simp] theorem State.emit_status (s : State) (bs : List Byte) : (s.emit bs).status = s.status := rfl
@[simp] theorem State.emit_out (s : State) (bs : List Byte) : (s.emit bs).out = s.out ++ bs.map .console := rfl
@[simp] theorem State.emit_draws (s : State) (bs : List Byte) : (s.emit bs).draws = s.draws := rfl
@[simp] theorem State.emit_params (s : State) (bs : List Byte) : (s.emit bs).params = s.params := rfl
@[simp] theorem State.emit_reg (s : State) (bs : List Byte) (i : RegIdx) :
    (s.emit bs).reg i = s.reg i := rfl

/-! ## haltSuccess -/

@[simp] theorem State.haltSuccess_regs (s : State) : s.haltSuccess.regs = s.regs := rfl
@[simp] theorem State.haltSuccess_pc (s : State) : s.haltSuccess.pc = s.pc := rfl
@[simp] theorem State.haltSuccess_mem (s : State) : s.haltSuccess.mem = s.mem := rfl
@[simp] theorem State.haltSuccess_status (s : State) : s.haltSuccess.status = .exited := rfl
@[simp] theorem State.haltSuccess_out (s : State) : s.haltSuccess.out = s.out := rfl
@[simp] theorem State.haltSuccess_draws (s : State) : s.haltSuccess.draws = s.draws := rfl
@[simp] theorem State.haltSuccess_params (s : State) : s.haltSuccess.params = s.params := rfl
@[simp] theorem State.haltSuccess_reg (s : State) (i : RegIdx) :
    s.haltSuccess.reg i = s.reg i := rfl

/-! ## afterDraw -/

@[simp] theorem State.afterDraw_regs (s : State) : s.afterDraw.regs = s.regs := rfl
@[simp] theorem State.afterDraw_pc (s : State) : s.afterDraw.pc = s.pc := rfl
@[simp] theorem State.afterDraw_mem (s : State) : s.afterDraw.mem = s.mem := rfl
@[simp] theorem State.afterDraw_status (s : State) : s.afterDraw.status = s.status := rfl
@[simp] theorem State.afterDraw_out (s : State) : s.afterDraw.out = s.out := rfl
@[simp] theorem State.afterDraw_draws (s : State) : s.afterDraw.draws = s.draws + 1 := rfl
@[simp] theorem State.afterDraw_params (s : State) : s.afterDraw.params = s.params := rfl
@[simp] theorem State.afterDraw_reg (s : State) (i : RegIdx) :
    s.afterDraw.reg i = s.reg i := rfl

/-! ## A new memory -/

@[simp] theorem State.withMem_regs (s : State) (m : Memory) :
    ({ s with mem := m } : State).regs = s.regs := rfl
@[simp] theorem State.withMem_pc (s : State) (m : Memory) :
    ({ s with mem := m } : State).pc = s.pc := rfl
@[simp] theorem State.withMem_status (s : State) (m : Memory) :
    ({ s with mem := m } : State).status = s.status := rfl
@[simp] theorem State.withMem_out (s : State) (m : Memory) :
    ({ s with mem := m } : State).out = s.out := rfl
@[simp] theorem State.withMem_draws (s : State) (m : Memory) :
    ({ s with mem := m } : State).draws = s.draws := rfl
@[simp] theorem State.withMem_params (s : State) (m : Memory) :
    ({ s with mem := m } : State).params = s.params := rfl
@[simp] theorem State.withMem_reg (s : State) (m : Memory) (i : RegIdx) :
    ({ s with mem := m } : State).reg i = s.reg i := rfl

/-! ## writeReg -/

@[simp] theorem State.writeReg_pc (s : State) (i : RegIdx) (v : Word) :
    (s.writeReg i v).pc = s.pc := by
  unfold State.writeReg; split <;> rfl
@[simp] theorem State.writeReg_mem (s : State) (i : RegIdx) (v : Word) :
    (s.writeReg i v).mem = s.mem := by
  unfold State.writeReg; split <;> rfl
@[simp] theorem State.writeReg_status (s : State) (i : RegIdx) (v : Word) :
    (s.writeReg i v).status = s.status := by
  unfold State.writeReg; split <;> rfl
@[simp] theorem State.writeReg_out (s : State) (i : RegIdx) (v : Word) :
    (s.writeReg i v).out = s.out := by
  unfold State.writeReg; split <;> rfl
@[simp] theorem State.writeReg_draws (s : State) (i : RegIdx) (v : Word) :
    (s.writeReg i v).draws = s.draws := by
  unfold State.writeReg; split <;> rfl
@[simp] theorem State.writeReg_params (s : State) (i : RegIdx) (v : Word) :
    (s.writeReg i v).params = s.params := by
  unfold State.writeReg; split <;> rfl

/-- What register j holds after `x[i] <- v` (R21). -/
theorem State.reg_writeReg (s : State) (i j : RegIdx) (v : Word) :
    (s.writeReg i v).reg j =
      if j = i ∧ ¬ (s.params.x0Policy = .discard ∧ i = 0) then .val v else s.reg j := by
  by_cases hd : s.params.x0Policy = .discard ∧ i = 0
  · rw [if_neg fun h => h.2 hd, State.writeReg, if_pos hd]
  · rw [State.writeReg, if_neg hd]
    by_cases hji : j = i
    · subst hji
      rw [if_pos ⟨rfl, hd⟩]
      exact Vector.getElem_set_self j.isLt
    · rw [if_neg fun h => hji h.1]
      exact Vector.getElem_set_ne i.isLt j.isLt fun h => hji (BitVec.eq_of_toNat_eq h.symm)

end Sys2Proof.Machine
end

