-- ==== Sys2Proof/Laws/Ops.lean ====
section
/-! SUPPORT. For each shared operation, what it does when its condition holds, and one lemma that
says every case in which it answers a next state. Later proofs cite these instead of unfolding. -/

namespace Sys2Proof.Machine

/-! ## Reading a register -/

theorem withReg_of_val {s : State} {i : RegIdx} {v : Word} (k : Word → Result)
    (h : s.reg i = .val v) : withReg s i k = k v := by simp only [withReg, h]

theorem withReg_of_unset {s : State} {i : RegIdx} (k : Word → Result) (h : s.reg i = .unset) :
    withReg s i k = .next (s.raise (.unsetRegister i)) := by simp only [withReg, h, State.raised]

theorem withReg_next {s t : State} {i : RegIdx} {k : Word → Result} (h : withReg s i k = .next t) :
    (s.reg i = .unset ∧ t = s.raise (.unsetRegister i)) ∨ ∃ v, s.reg i = .val v ∧ k v = .next t := by
  cases hr : s.reg i with
  | unset =>
    rw [withReg_of_unset k hr] at h
    exact .inl ⟨rfl, (Host.Outcome.next.inj h).symm⟩
  | val v => exact .inr ⟨v, rfl, withReg_of_val k hr ▸ h⟩

/-! ## Memory accesses -/

theorem withLoad_of_admits {s : State} {a : Word} {n : Nat} (k : Word → Result)
    (h : s.admits a n = true) : withLoad s a n k = k (s.mem.load a.toNat n) := by simp [withLoad, h]

theorem withLoad_of_not {s : State} {a : Word} {n : Nat} (k : Word → Result)
    (h : s.admits a n = false) : withLoad s a n k = .next (s.raise (.invalidRead a)) := by
  simp [withLoad, h, State.raised]

theorem withLoad_next {s t : State} {a : Word} {n : Nat} {k : Word → Result}
    (h : withLoad s a n k = .next t) :
    (s.admits a n = false ∧ t = s.raise (.invalidRead a)) ∨
      (s.admits a n = true ∧ k (s.mem.load a.toNat n) = .next t) := by
  cases ha : s.admits a n with
  | false =>
    rw [withLoad_of_not k ha] at h
    exact .inl ⟨rfl, (Host.Outcome.next.inj h).symm⟩
  | true => exact .inr ⟨rfl, withLoad_of_admits k ha ▸ h⟩

theorem withStore_of_admits {s : State} {a : Word} {n : Nat} {v : Word} (k : State → Result)
    (h : s.admits a n = true) :
    withStore s a n v k = k { s with mem := s.mem.store a.toNat n v } := by simp [withStore, h]

theorem withStore_of_not {s : State} {a : Word} {n : Nat} {v : Word} (k : State → Result)
    (h : s.admits a n = false) : withStore s a n v k = .next (s.raise (.invalidWrite a)) := by
  simp [withStore, h, State.raised]

theorem withStore_next {s t : State} {a : Word} {n : Nat} {v : Word} {k : State → Result}
    (h : withStore s a n v k = .next t) :
    (s.admits a n = false ∧ t = s.raise (.invalidWrite a)) ∨
      (s.admits a n = true ∧ k { s with mem := s.mem.store a.toNat n v } = .next t) := by
  cases ha : s.admits a n with
  | false =>
    rw [withStore_of_not k ha] at h
    exact .inl ⟨rfl, (Host.Outcome.next.inj h).symm⟩
  | true => exact .inr ⟨rfl, withStore_of_admits k ha ▸ h⟩

theorem State.admits_iff {s : State} {a : Word} {n : Nat} :
    s.admits a n = true ↔ a.toNat + n ≤ s.params.memSize := by simp [State.admits]

theorem State.not_admits_iff {s : State} {a : Word} {n : Nat} :
    s.admits a n = false ↔ s.params.memSize < a.toNat + n := by simp [State.admits]

/-! ## The handlers -/

/-- Opcode 0x33 but DIV and REM. -/
theorem registerOp_next {s t : State} {rd rs1 rs2 : RegIdx} {f : Word → Word → Word}
    (h : registerOp s rd rs1 rs2 f = .next t) :
    (∃ i, t = s.raise (.unsetRegister i)) ∨
      ∃ a b, s.reg rs1 = .val a ∧ s.reg rs2 = .val b ∧ t = (s.writeReg rd (f a b)).advance := by
  obtain ⟨-, rfl⟩ | ⟨a, ha, h⟩ := withReg_next h
  · exact .inl ⟨_, rfl⟩
  obtain ⟨-, rfl⟩ | ⟨b, hb, h⟩ := withReg_next h
  · exact .inl ⟨_, rfl⟩
  exact .inr ⟨a, b, ha, hb, (Host.Outcome.next.inj h).symm⟩

/-- DIV and REM. -/
theorem divideOp_next {s t : State} {w : Word} {rd rs1 rs2 : RegIdx} {f corner : Word → Word → Word}
    (h : divideOp s w rd rs1 rs2 f corner = .next t) :
    (∃ e, t = s.raise e) ∨ ∃ v, t = (s.writeReg rd v).advance := by
  obtain ⟨-, rfl⟩ | ⟨a, -, h⟩ := withReg_next h
  · exact .inl ⟨_, rfl⟩
  obtain ⟨-, rfl⟩ | ⟨b, -, h⟩ := withReg_next h
  · exact .inl ⟨_, rfl⟩
  split at h
  · split at h
    · exact .inl ⟨_, (Host.Outcome.next.inj h).symm⟩
    · exact .inr ⟨_, (Host.Outcome.next.inj h).symm⟩
  · exact .inr ⟨_, (Host.Outcome.next.inj h).symm⟩

/-- Opcode 0x13 but OPIMM-INVALID. -/
theorem immediateOp_next {s t : State} {rd rs1 : RegIdx} {f : Word → Word}
    (h : immediateOp s rd rs1 f = .next t) :
    t = s.raise (.unsetRegister rs1) ∨
      ∃ a, s.reg rs1 = .val a ∧ t = (s.writeReg rd (f a)).advance := by
  obtain ⟨-, rfl⟩ | ⟨a, ha, h⟩ := withReg_next h
  · exact .inl rfl
  exact .inr ⟨a, ha, (Host.Outcome.next.inj h).symm⟩

/-- Loads. -/
theorem loadOp_next {s t : State} {rd rs1 : RegIdx} {imm : BitVec 12} {n : Nat}
    {extend : Word → Word} (h : loadOp s rd rs1 imm n extend = .next t) :
    (∃ e, t = s.raise e) ∨ ∃ base, s.reg rs1 = .val base ∧
      s.admits (loadAddress base imm) n = true ∧
      t = (s.writeReg rd (extend (s.mem.load (loadAddress base imm).toNat n))).advance := by
  obtain ⟨-, rfl⟩ | ⟨base, hb, h⟩ := withReg_next h
  · exact .inl ⟨_, rfl⟩
  obtain ⟨-, rfl⟩ | ⟨ha, h⟩ := withLoad_next h
  · exact .inl ⟨_, rfl⟩
  exact .inr ⟨base, hb, ha, (Host.Outcome.next.inj h).symm⟩

/-- Stores. -/
theorem storeOp_next {s t : State} {rs1 rs2 : RegIdx} {hi : BitVec 7} {lo : BitVec 5} {n : Nat}
    (h : storeOp s rs1 rs2 hi lo n = .next t) :
    (∃ e, t = s.raise e) ∨ ∃ base v, s.reg rs1 = .val base ∧ s.reg rs2 = .val v ∧
      s.admits (storeAddress base hi lo) n = true ∧
      t = ({ s with mem := s.mem.store (storeAddress base hi lo).toNat n v } : State).advance := by
  obtain ⟨-, rfl⟩ | ⟨base, hb, h⟩ := withReg_next h
  · exact .inl ⟨_, rfl⟩
  obtain ⟨-, rfl⟩ | ⟨v, hv, h⟩ := withReg_next h
  · exact .inl ⟨_, rfl⟩
  obtain ⟨-, rfl⟩ | ⟨ha, h⟩ := withStore_next h
  · exact .inl ⟨_, rfl⟩
  exact .inr ⟨base, v, hb, hv, ha, (Host.Outcome.next.inj h).symm⟩

/-- Branches. -/
theorem branchOp_next {s t : State} {rs1 rs2 : RegIdx} {hi : BitVec 7} {lo : BitVec 5}
    {taken : Word → Word → Bool} (h : branchOp s rs1 rs2 hi lo taken = .next t) :
    (∃ i, t = s.raise (.unsetRegister i)) ∨ ∃ a b, s.reg rs1 = .val a ∧ s.reg rs2 = .val b ∧
      t = s.jump (if taken a b then s.pc + branchOffset hi lo else s.pc + 4) := by
  obtain ⟨-, rfl⟩ | ⟨a, ha, h⟩ := withReg_next h
  · exact .inl ⟨_, rfl⟩
  obtain ⟨-, rfl⟩ | ⟨b, hb, h⟩ := withReg_next h
  · exact .inl ⟨_, rfl⟩
  refine .inr ⟨a, b, ha, hb, ?_⟩
  split at h
  · next ht => rw [if_pos ht]; exact (Host.Outcome.next.inj h).symm
  · next ht => rw [if_neg ht]; exact (Host.Outcome.next.inj h).symm

/-- LSGT. -/
theorem execLsgt_next {s t : State} {rd rs1 rs2 : RegIdx} {f3 : BitVec 3} {f7 : BitVec 7}
    (h : execLsgt rd rs1 rs2 f3 f7 s = .next t) :
    (∃ e, t = s.raise e) ∨ t = s.advance ∨ ∃ v, t = (s.writeReg rd v).advance := by
  obtain ⟨-, rfl⟩ | ⟨a, -, h⟩ := withReg_next h
  · exact .inl ⟨_, rfl⟩
  obtain ⟨-, rfl⟩ | ⟨addr, -, h⟩ := withReg_next h
  · exact .inl ⟨_, rfl⟩
  obtain ⟨-, rfl⟩ | ⟨-, h⟩ := withLoad_next h
  · exact .inl ⟨_, rfl⟩
  split at h
  · exact .inr (.inr ⟨_, (Host.Outcome.next.inj h).symm⟩)
  · exact .inr (.inl (Host.Outcome.next.inj h).symm)

/-- OPIMM-INVALID. -/
theorem execOpimmInvalid_next {s t : State} {rd rs1 : RegIdx} {imm : BitVec 12}
    (h : execOpimmInvalid rd rs1 imm s = .next t) :
    (∃ e, t = s.raise e) ∨ ∃ e, t = (((s.report e).writeReg rd s.drawn).afterDraw).advance := by
  unfold execOpimmInvalid at h
  split at h
  · exact .inr ⟨_, (Host.Outcome.next.inj h).symm⟩
  · exact .inl ⟨_, (Host.Outcome.next.inj h).symm⟩

/-- ECALL: it raises, prints and goes on, or exits. -/
theorem execEcall_next {s t : State} {rd rs1 : RegIdx} {f3 : BitVec 3} {imm : BitVec 12}
    (h : execEcall rd rs1 f3 imm s = .next t) :
    (∃ e, t = s.raise e) ∨ (∃ bs, t = (s.emit bs).advance) ∨
      (s.reg 10 = .val 10 ∧ t = (s.emit s.params.exitBanner).haltSuccess) := by
  obtain ⟨-, rfl⟩ | ⟨n, hn, h⟩ := withReg_next h
  · exact .inl ⟨_, rfl⟩
  have print : ∀ {f : Word → List Byte}, withReg s 11 (fun a => .next (s.emit (f a)).advance) =
      .next t → (∃ e, t = s.raise e) ∨ (∃ bs, t = (s.emit bs).advance) ∨
      (s.reg 10 = .val 10 ∧ t = (s.emit s.params.exitBanner).haltSuccess) := by
    intro f h
    obtain ⟨-, rfl⟩ | ⟨a, -, h⟩ := withReg_next h
    · exact .inl ⟨_, rfl⟩
    · exact .inr (.inl ⟨_, (Host.Outcome.next.inj h).symm⟩)
  split at h
  · exact print h
  split at h
  · exact print h
  split at h
  · next h10 => exact .inr (.inr ⟨h10 ▸ hn, (Host.Outcome.next.inj h).symm⟩)
  split at h
  · exact print h
  · exact .inl ⟨_, (Host.Outcome.next.inj h).symm⟩

/-! ## Fetching -/

theorem fetch_ok {s : State} {w : Word} (h : fetch s = .ok w) :
    ¬ (s.params.fetchMisaligned = .fault ∧ s.pc.extractLsb' 0 2 ≠ 0) ∧ s.admits s.pc 4 = true ∧
      w = s.mem.load s.pc.toNat 4 := by
  unfold fetch at h
  split at h
  · cases h
  · next hal =>
    split at h
    · next ha => exact ⟨hal, ha, (Except.ok.inj h).symm⟩
    · cases h

theorem fetchDecode_ok {s : State} {i : Instr} (h : fetchDecode s = .ok i) :
    ∃ w, fetch s = .ok w ∧ decode s.params.strictFunct7 w = .ok i := by
  unfold fetchDecode at h
  split at h
  · cases h
  · next w hw =>
    split at h
    · cases h
    · next i' hd => exact ⟨w, hw, Except.ok.inj h ▸ hd⟩

/-- A step that answers a next state raised, or executed the instruction at pc. -/
theorem step_next {s t : State} (h : step s = .next t) :
    s.status = .running ∧ ((∃ e, fetchDecode s = .error e ∧ t = s.raise e) ∨
      ∃ i, fetchDecode s = .ok i ∧ exec i s = .next t) := by
  unfold step at h
  split at h
  · next hr =>
    refine ⟨hr, ?_⟩
    split at h
    · next e he => exact .inl ⟨e, he, (Host.Outcome.next.inj h).symm⟩
    · next i hi => exact .inr ⟨i, hi, h⟩
  · cases h

end Sys2Proof.Machine
end

