-- ==== Sys2Proof/Laws/Exec.lean ====
section
/-! SUPPORT. What one instruction can do, said once: the forms of the next state of exec, each with
the instructions that take it. Later proofs split on these instead of unfolding exec. -/

namespace Sys2Proof.Machine

/-- The forms a next state can have. -/
inductive NextForm (i : Instr) (s : State) : State → Prop where
  /-- The instruction raised an error (R220). -/
  | raised (e : Err) : NextForm i s (s.raise e)
  /-- It wrote its destination and advanced (R100, R130, R150, R190). -/
  | wrote (rd : RegIdx) (v : Word) (hd : i.dest = some rd) :
      NextForm i s (s.writeReg rd v).advance
  /-- It only advanced: LSGT without a write, or a branch not taken (R116, R171). -/
  | advanced : NextForm i s s.advance
  /-- A branch taken (R171). -/
  | branched (hi : BitVec 7) (lo : BitVec 5) : NextForm i s (s.jump (s.pc + branchOffset hi lo))
  /-- JAL (R172). -/
  | linked (rd : RegIdx) (imm : BitVec 20) (hd : i.dest = some rd) :
      NextForm i s ((s.writeReg rd (s.pc + 4)).jump (s.pc + jumpOffset imm))
  /-- A store (R155). -/
  | stored (a : Word) (n : Nat) (v : Word) (hs : i.stores = true) (ha : s.admits a n = true) :
      NextForm i s ({ s with mem := s.mem.store a.toNat n v } : State).advance
  /-- OPIMM-INVALID under CONTINUE (R140). -/
  | drew (rd rs1 : RegIdx) (imm : BitVec 12) (e : Err) (hi : i = .opimmInvalid rd rs1 imm) :
      NextForm i s (((s.report e).writeReg rd s.drawn).afterDraw).advance
  /-- A print syscall (R202, R203, R205). -/
  | printed (bytes : List Byte) : NextForm i s (s.emit bytes).advance
  /-- Syscall 10 (R204). -/
  | exited (rd rs1 : RegIdx) (f3 : BitVec 3) (imm : BitVec 12) (hi : i = .ecall rd rs1 f3 imm)
      (h10 : s.reg 10 = .val 10) : NextForm i s (s.emit s.params.exitBanner).haltSuccess

namespace NextForm

variable {i : Instr} {s t : State} {rd rs1 rs2 : RegIdx}

theorem of_registerOp {f : Word → Word → Word} (h : registerOp s rd rs1 rs2 f = .next t)
    (hd : i.dest = some rd) : NextForm i s t := by
  obtain ⟨j, rfl⟩ | ⟨a, b, -, -, rfl⟩ := registerOp_next h
  · exact .raised _
  · exact .wrote _ _ hd

theorem of_divideOp {w : Word} {f corner : Word → Word → Word}
    (h : divideOp s w rd rs1 rs2 f corner = .next t) (hd : i.dest = some rd) : NextForm i s t := by
  obtain ⟨e, rfl⟩ | ⟨v, rfl⟩ := divideOp_next h
  · exact .raised _
  · exact .wrote _ _ hd

theorem of_immediateOp {f : Word → Word} (h : immediateOp s rd rs1 f = .next t)
    (hd : i.dest = some rd) : NextForm i s t := by
  obtain rfl | ⟨a, -, rfl⟩ := immediateOp_next h
  · exact .raised _
  · exact .wrote _ _ hd

theorem of_loadOp {imm : BitVec 12} {n : Nat} {extend : Word → Word}
    (h : loadOp s rd rs1 imm n extend = .next t) (hd : i.dest = some rd) : NextForm i s t := by
  obtain ⟨e, rfl⟩ | ⟨a, -, -, rfl⟩ := loadOp_next h
  · exact .raised _
  · exact .wrote _ _ hd

theorem of_storeOp {hi : BitVec 7} {lo : BitVec 5} {n : Nat}
    (h : storeOp s rs1 rs2 hi lo n = .next t) (hs : i.stores = true) : NextForm i s t := by
  obtain ⟨e, rfl⟩ | ⟨base, v, -, -, ha, rfl⟩ := storeOp_next h
  · exact .raised _
  · exact .stored _ _ _ hs ha

theorem of_branchOp {hi : BitVec 7} {lo : BitVec 5} {taken : Word → Word → Bool}
    (h : branchOp s rs1 rs2 hi lo taken = .next t) : NextForm i s t := by
  obtain ⟨j, rfl⟩ | ⟨a, b, -, -, rfl⟩ := branchOp_next h
  · exact .raised _
  · split
    · exact .branched hi lo
    · exact .advanced

end NextForm

/-- Every next state of exec has one of the forms. -/
theorem exec_next {i : Instr} {s t : State} (h : exec i s = .next t) : NextForm i s t := by
  cases i with
  | add | sub | sll | slt | xor | srl | sra | or | and | mul | mulh => exact .of_registerOp h rfl
  | div | rem => exact .of_divideOp h rfl
  | lsgt rd rs1 rs2 f3 f7 =>
    obtain ⟨e, rfl⟩ | rfl | ⟨v, rfl⟩ := execLsgt_next (f3 := f3) (f7 := f7) h
    · exact .raised _
    · exact .advanced
    · exact .wrote _ _ rfl
  | addi | slli | slti | xori | srli | srai | ori | andi => exact .of_immediateOp h rfl
  | opimmInvalid rd rs1 imm =>
    obtain ⟨e, rfl⟩ | ⟨e, rfl⟩ := execOpimmInvalid_next (rs1 := rs1) h
    · exact .raised _
    · exact .drew _ _ _ _ rfl
  | lb | lh | lw => exact .of_loadOp h rfl
  | sb | sh | sw => exact .of_storeOp h rfl
  | beq | bne => exact .of_branchOp h
  | jal => cases h; exact .linked _ _ rfl
  | jalrUnhandled | auipcUnhandled => cases h; exact .raised _
  | lui => cases h; exact .wrote _ _ rfl
  | ecall rd rs1 f3 imm =>
    obtain ⟨e, rfl⟩ | ⟨bs, rfl⟩ | ⟨h10, rfl⟩ :=
      execEcall_next (rd := rd) (rs1 := rs1) (f3 := f3) (imm := imm) h
    · exact .raised _
    · exact .printed _
    · exact .exited _ _ _ _ rfl h10

end Sys2Proof.Machine
end

