-- ==== Sys2Proof/Laws/Fields.lean ====
section
/-! SUPPORT. Each field of a packed word is the field that was packed (R62 to R68). -/

namespace Sys2Proof

section
variable (f7 : BitVec 7) (rs2 rs1 : RegIdx) (f3 : BitVec 3) (rd : RegIdx) (o : BitVec 7)

@[simp] theorem opcodeOf_packR : opcodeOf (packR f7 rs2 rs1 f3 rd o) = o := by
  apply BitVec.eq_of_getLsbD_eq
  intro j hj
  simp only [opcodeOf, packR, BitVec.getLsbD_extractLsb', BitVec.getLsbD_append]
  interval_cases j <;> simp

@[simp] theorem rdOf_packR : rdOf (packR f7 rs2 rs1 f3 rd o) = rd := by
  apply BitVec.eq_of_getLsbD_eq
  intro j hj
  simp only [rdOf, packR, BitVec.getLsbD_extractLsb', BitVec.getLsbD_append]
  interval_cases j <;> simp

@[simp] theorem funct3Of_packR : funct3Of (packR f7 rs2 rs1 f3 rd o) = f3 := by
  apply BitVec.eq_of_getLsbD_eq
  intro j hj
  simp only [funct3Of, packR, BitVec.getLsbD_extractLsb', BitVec.getLsbD_append]
  interval_cases j <;> simp

@[simp] theorem rs1Of_packR : rs1Of (packR f7 rs2 rs1 f3 rd o) = rs1 := by
  apply BitVec.eq_of_getLsbD_eq
  intro j hj
  simp only [rs1Of, packR, BitVec.getLsbD_extractLsb', BitVec.getLsbD_append]
  interval_cases j <;> simp

@[simp] theorem rs2Of_packR : rs2Of (packR f7 rs2 rs1 f3 rd o) = rs2 := by
  apply BitVec.eq_of_getLsbD_eq
  intro j hj
  simp only [rs2Of, packR, BitVec.getLsbD_extractLsb', BitVec.getLsbD_append]
  interval_cases j <;> simp

@[simp] theorem funct7Of_packR : funct7Of (packR f7 rs2 rs1 f3 rd o) = f7 := by
  apply BitVec.eq_of_getLsbD_eq
  intro j hj
  simp only [funct7Of, packR, BitVec.getLsbD_extractLsb', BitVec.getLsbD_append]
  interval_cases j <;> simp

end

section
variable (imm : BitVec 12) (rs1 : RegIdx) (f3 : BitVec 3) (rd : RegIdx) (o : BitVec 7)

/-- An I-format word is an R-format word with the immediate's upper 7 and lower 5 bits for funct7 and
rs2 (R62, R63). -/
theorem packI_eq_packR :
    packI imm rs1 f3 rd o = packR (imm.extractLsb' 5 7) (imm.extractLsb' 0 5) rs1 f3 rd o := by
  apply BitVec.eq_of_getLsbD_eq
  intro j hj
  simp only [packI, packR, BitVec.getLsbD_extractLsb', BitVec.getLsbD_append]
  interval_cases j <;> simp

@[simp] theorem opcodeOf_packI : opcodeOf (packI imm rs1 f3 rd o) = o := by
  rw [packI_eq_packR, opcodeOf_packR]

@[simp] theorem rdOf_packI : rdOf (packI imm rs1 f3 rd o) = rd := by
  rw [packI_eq_packR, rdOf_packR]

@[simp] theorem funct3Of_packI : funct3Of (packI imm rs1 f3 rd o) = f3 := by
  rw [packI_eq_packR, funct3Of_packR]

@[simp] theorem rs1Of_packI : rs1Of (packI imm rs1 f3 rd o) = rs1 := by
  rw [packI_eq_packR, rs1Of_packR]

@[simp] theorem immIOf_packI : immIOf (packI imm rs1 f3 rd o) = imm := by
  apply BitVec.eq_of_getLsbD_eq
  intro j hj
  simp only [immIOf, packI, BitVec.getLsbD_extractLsb', BitVec.getLsbD_append]
  interval_cases j <;> simp

end

section
variable (imm : BitVec 20) (rd : RegIdx) (o : BitVec 7)

@[simp] theorem opcodeOf_packU : opcodeOf (packU imm rd o) = o := by
  apply BitVec.eq_of_getLsbD_eq
  intro j hj
  simp only [opcodeOf, packU, BitVec.getLsbD_extractLsb', BitVec.getLsbD_append]
  interval_cases j <;> simp

@[simp] theorem rdOf_packU : rdOf (packU imm rd o) = rd := by
  apply BitVec.eq_of_getLsbD_eq
  intro j hj
  simp only [rdOf, packU, BitVec.getLsbD_extractLsb', BitVec.getLsbD_append]
  interval_cases j <;> simp

@[simp] theorem immUOf_packU : immUOf (packU imm rd o) = imm := by
  apply BitVec.eq_of_getLsbD_eq
  intro j hj
  simp only [immUOf, packU, BitVec.getLsbD_extractLsb', BitVec.getLsbD_append]
  interval_cases j <;> simp

end

end Sys2Proof
end

