-- ==== Sys2Proof/Laws/PerInstr.lean ====
section
/-! SUPPORT. Statements made per instruction. The family EncodesTableRow: the word of every instruction
matches its row of spec/opcode_table.json (the word masked by the row's mask is the row's match). -/

namespace Sys2Proof.Laws.EncodesTableRow

/-- The mask and the match of an instruction's row of spec/opcode_table.json, copied from the table. -/
def row : Instr → Word × Word
  | .add .. => (0xFE00707F#32, 0x00000033#32)
  | .sub .. => (0xFE00707F#32, 0x40000033#32)
  | .sll .. => (0xFE00707F#32, 0x00001033#32)
  | .slt .. => (0x0000707F#32, 0x00002033#32)
  | .xor .. => (0xFE00707F#32, 0x00004033#32)
  | .srl .. => (0xFE00707F#32, 0x00005033#32)
  | .sra .. => (0xFE00707F#32, 0x40005033#32)
  | .or .. => (0xFE00707F#32, 0x00006033#32)
  | .and .. => (0x0000707F#32, 0x00007033#32)
  | .mul .. => (0xFE00707F#32, 0x02000033#32)
  | .mulh .. => (0xFE00707F#32, 0x02001033#32)
  | .div .. => (0xFE00707F#32, 0x02004033#32)
  | .rem .. => (0xFE00707F#32, 0x02006033#32)
  | .lsgt .. => (0x0000007F#32, 0x0000002A#32)
  | .addi .. => (0x0000707F#32, 0x00000013#32)
  | .slli .. => (0x0000707F#32, 0x00001013#32)
  | .slti .. => (0x0000707F#32, 0x00002013#32)
  | .opimmInvalid .. => (0x0000707F#32, 0x00003013#32)
  | .xori .. => (0x0000707F#32, 0x00004013#32)
  | .srli .. => (0x0000707F#32, 0x00005013#32)
  | .srai .. => (0xFE00707F#32, 0x40005013#32)
  | .ori .. => (0x0000707F#32, 0x00006013#32)
  | .andi .. => (0x0000707F#32, 0x00007013#32)
  | .lb .. => (0x0000707F#32, 0x00000003#32)
  | .lh .. => (0x0000707F#32, 0x00001003#32)
  | .lw .. => (0x0000707F#32, 0x00002003#32)
  | .sb .. => (0x0000707F#32, 0x00000023#32)
  | .sh .. => (0x0000707F#32, 0x00001023#32)
  | .sw .. => (0x0000707F#32, 0x00002023#32)
  | .beq .. => (0x0000707F#32, 0x00000063#32)
  | .bne .. => (0x0000707F#32, 0x00001063#32)
  | .jal .. => (0x0000007F#32, 0x0000006F#32)
  | .jalrUnhandled .. => (0x0000007F#32, 0x00000067#32)
  | .lui .. => (0x0000007F#32, 0x00000037#32)
  | .auipcUnhandled .. => (0x0000007F#32, 0x00000017#32)
  | .ecall .. => (0x0000007F#32, 0x00000073#32)

/-- The instruction's word matches its row. -/
def Statement (i : Instr) : Prop := encode i &&& (row i).1 = (row i).2

/-! ## A word of each layout under each mask of the table -/

theorem packR_mask_all (f7 : BitVec 7) (rs2 rs1 : RegIdx) (f3 : BitVec 3) (rd : RegIdx) (o : BitVec 7) :
    packR f7 rs2 rs1 f3 rd o &&& 0xFE00707F#32 = packR f7 0 0 f3 0 o := by
  apply BitVec.eq_of_getLsbD_eq
  intro j hj
  simp only [packR, BitVec.getLsbD_and, BitVec.getLsbD_append]
  interval_cases j <;> simp

theorem packR_mask_funct3 (f7 : BitVec 7) (rs2 rs1 : RegIdx) (f3 : BitVec 3) (rd : RegIdx)
    (o : BitVec 7) : packR f7 rs2 rs1 f3 rd o &&& 0x0000707F#32 = packR 0 0 0 f3 0 o := by
  apply BitVec.eq_of_getLsbD_eq
  intro j hj
  simp only [packR, BitVec.getLsbD_and, BitVec.getLsbD_append]
  interval_cases j <;> simp

theorem packR_mask_opcode (f7 : BitVec 7) (rs2 rs1 : RegIdx) (f3 : BitVec 3) (rd : RegIdx)
    (o : BitVec 7) : packR f7 rs2 rs1 f3 rd o &&& 0x0000007F#32 = packR 0 0 0 0 0 o := by
  apply BitVec.eq_of_getLsbD_eq
  intro j hj
  simp only [packR, BitVec.getLsbD_and, BitVec.getLsbD_append]
  interval_cases j <;> simp

theorem packI_mask_funct3 (imm : BitVec 12) (rs1 : RegIdx) (f3 : BitVec 3) (rd : RegIdx) (o : BitVec 7) :
    packI imm rs1 f3 rd o &&& 0x0000707F#32 = packI 0 0 f3 0 o := by
  apply BitVec.eq_of_getLsbD_eq
  intro j hj
  simp only [packI, BitVec.getLsbD_and, BitVec.getLsbD_append]
  interval_cases j <;> simp

theorem packI_mask_opcode (imm : BitVec 12) (rs1 : RegIdx) (f3 : BitVec 3) (rd : RegIdx) (o : BitVec 7) :
    packI imm rs1 f3 rd o &&& 0x0000007F#32 = packI 0 0 0 0 o := by
  apply BitVec.eq_of_getLsbD_eq
  intro j hj
  simp only [packI, BitVec.getLsbD_and, BitVec.getLsbD_append]
  interval_cases j <;> simp

theorem packU_mask_opcode (imm : BitVec 20) (rd : RegIdx) (o : BitVec 7) :
    packU imm rd o &&& 0x0000007F#32 = packU 0 0 o := by
  apply BitVec.eq_of_getLsbD_eq
  intro j hj
  simp only [packU, BitVec.getLsbD_and, BitVec.getLsbD_append]
  interval_cases j <;> simp

/-! ## One lemma per constructor -/

theorem add (rd rs1 rs2 : RegIdx) :
    Statement (.add rd rs1 rs2) :=
  (packR_mask_all ..).trans rfl

theorem sub (rd rs1 rs2 : RegIdx) :
    Statement (.sub rd rs1 rs2) :=
  (packR_mask_all ..).trans rfl

theorem sll (rd rs1 rs2 : RegIdx) :
    Statement (.sll rd rs1 rs2) :=
  (packR_mask_all ..).trans rfl

theorem slt (rd rs1 rs2 : RegIdx) (funct7 : BitVec 7) :
    Statement (.slt rd rs1 rs2 funct7) :=
  (packR_mask_funct3 ..).trans rfl

theorem xor (rd rs1 rs2 : RegIdx) :
    Statement (.xor rd rs1 rs2) :=
  (packR_mask_all ..).trans rfl

theorem srl (rd rs1 rs2 : RegIdx) :
    Statement (.srl rd rs1 rs2) :=
  (packR_mask_all ..).trans rfl

theorem sra (rd rs1 rs2 : RegIdx) :
    Statement (.sra rd rs1 rs2) :=
  (packR_mask_all ..).trans rfl

theorem or (rd rs1 rs2 : RegIdx) :
    Statement (.or rd rs1 rs2) :=
  (packR_mask_all ..).trans rfl

theorem and (rd rs1 rs2 : RegIdx) (funct7 : BitVec 7) :
    Statement (.and rd rs1 rs2 funct7) :=
  (packR_mask_funct3 ..).trans rfl

theorem mul (rd rs1 rs2 : RegIdx) :
    Statement (.mul rd rs1 rs2) :=
  (packR_mask_all ..).trans rfl

theorem mulh (rd rs1 rs2 : RegIdx) :
    Statement (.mulh rd rs1 rs2) :=
  (packR_mask_all ..).trans rfl

theorem div (rd rs1 rs2 : RegIdx) :
    Statement (.div rd rs1 rs2) :=
  (packR_mask_all ..).trans rfl

theorem rem (rd rs1 rs2 : RegIdx) :
    Statement (.rem rd rs1 rs2) :=
  (packR_mask_all ..).trans rfl

theorem lsgt (rd rs1 rs2 : RegIdx) (funct3 : BitVec 3) (funct7 : BitVec 7) :
    Statement (.lsgt rd rs1 rs2 funct3 funct7) :=
  (packR_mask_opcode ..).trans rfl

theorem addi (rd rs1 : RegIdx) (imm : BitVec 12) :
    Statement (.addi rd rs1 imm) :=
  (packI_mask_funct3 ..).trans rfl

theorem slli (rd rs1 : RegIdx) (shamt : BitVec 5) (upper : BitVec 7) :
    Statement (.slli rd rs1 shamt upper) :=
  (packR_mask_funct3 ..).trans rfl

theorem slti (rd rs1 : RegIdx) (imm : BitVec 12) :
    Statement (.slti rd rs1 imm) :=
  (packI_mask_funct3 ..).trans rfl

theorem opimmInvalid (rd rs1 : RegIdx) (imm : BitVec 12) :
    Statement (.opimmInvalid rd rs1 imm) :=
  (packI_mask_funct3 ..).trans rfl

theorem xori (rd rs1 : RegIdx) (imm : BitVec 12) :
    Statement (.xori rd rs1 imm) :=
  (packI_mask_funct3 ..).trans rfl

theorem srli (rd rs1 : RegIdx) (shamt : BitVec 5) (upper : BitVec 7) :
    Statement (.srli rd rs1 shamt upper) :=
  (packR_mask_funct3 ..).trans rfl

theorem srai (rd rs1 : RegIdx) (shamt : BitVec 5) :
    Statement (.srai rd rs1 shamt) :=
  (packR_mask_all ..).trans rfl

theorem ori (rd rs1 : RegIdx) (imm : BitVec 12) :
    Statement (.ori rd rs1 imm) :=
  (packI_mask_funct3 ..).trans rfl

theorem andi (rd rs1 : RegIdx) (imm : BitVec 12) :
    Statement (.andi rd rs1 imm) :=
  (packI_mask_funct3 ..).trans rfl

theorem lb (rd rs1 : RegIdx) (imm : BitVec 12) :
    Statement (.lb rd rs1 imm) :=
  (packI_mask_funct3 ..).trans rfl

theorem lh (rd rs1 : RegIdx) (imm : BitVec 12) :
    Statement (.lh rd rs1 imm) :=
  (packI_mask_funct3 ..).trans rfl

theorem lw (rd rs1 : RegIdx) (imm : BitVec 12) :
    Statement (.lw rd rs1 imm) :=
  (packI_mask_funct3 ..).trans rfl

theorem sb (rs1 rs2 : RegIdx) (immHigh : BitVec 7) (immLow : BitVec 5) :
    Statement (.sb rs1 rs2 immHigh immLow) :=
  (packR_mask_funct3 ..).trans rfl

theorem sh (rs1 rs2 : RegIdx) (immHigh : BitVec 7) (immLow : BitVec 5) :
    Statement (.sh rs1 rs2 immHigh immLow) :=
  (packR_mask_funct3 ..).trans rfl

theorem sw (rs1 rs2 : RegIdx) (immHigh : BitVec 7) (immLow : BitVec 5) :
    Statement (.sw rs1 rs2 immHigh immLow) :=
  (packR_mask_funct3 ..).trans rfl

theorem beq (rs1 rs2 : RegIdx) (immHigh : BitVec 7) (immLow : BitVec 5) :
    Statement (.beq rs1 rs2 immHigh immLow) :=
  (packR_mask_funct3 ..).trans rfl

theorem bne (rs1 rs2 : RegIdx) (immHigh : BitVec 7) (immLow : BitVec 5) :
    Statement (.bne rs1 rs2 immHigh immLow) :=
  (packR_mask_funct3 ..).trans rfl

theorem jal (rd : RegIdx) (imm : BitVec 20) :
    Statement (.jal rd imm) :=
  (packU_mask_opcode ..).trans rfl

theorem jalrUnhandled (rd rs1 : RegIdx) (funct3 : BitVec 3) (imm : BitVec 12) :
    Statement (.jalrUnhandled rd rs1 funct3 imm) :=
  (packI_mask_opcode ..).trans rfl

theorem lui (rd : RegIdx) (imm : BitVec 20) :
    Statement (.lui rd imm) :=
  (packU_mask_opcode ..).trans rfl

theorem auipcUnhandled (rd : RegIdx) (imm : BitVec 20) :
    Statement (.auipcUnhandled rd imm) :=
  (packU_mask_opcode ..).trans rfl

theorem ecall (rd rs1 : RegIdx) (funct3 : BitVec 3) (imm : BitVec 12) :
    Statement (.ecall rd rs1 funct3 imm) :=
  (packI_mask_opcode ..).trans rfl

end Sys2Proof.Laws.EncodesTableRow
end

