-- ==== Sys2Proof/Tests/Slice0.lean ====
section
/-! SUPPORT. The model's own tests. Words and expected values are those of spec/95_test_vectors.md (L1
and L2 rows) unless a comment says otherwise; the model's answers are never pasted in. Three parts:
words, one-step vectors, and witnesses that the hypotheses of the obligations can be met. -/

namespace Sys2Proof.Tests

open Sys2Proof Sys2Proof.Machine

/-! ## A small machine (L2's conventions: N = 0x400, the instruction at pc = 0x100) -/

/-- The defaults of R8, N = 0x400, a one-byte banner and FAIL_STATUS 1. -/
def small : Config.Params where
  memSize := 0x400
  x0Policy := .ordinary
  fetchMisaligned := .fault
  mulhMode := .wide64
  divCorner := .fault
  opimmInvalid := .goOn
  strictFunct7 := false
  lsgtCompare := .signed
  exitBanner := [0x2E]
  failStatus := 1

/-- A running state at pc = 0x100 with the given registers and bytes; every other register unset. -/
def start (p : Config.Params) (regs : List (RegIdx × Word)) (bytes : List (Nat × Byte)) : State where
  regs := regs.foldl (fun v r => v.set r.1.toNat (.val r.2) r.1.isLt) (Vector.replicate 32 .unset)
  pc := 0x100
  mem := bytes.foldl (fun m c => m.write c.1 c.2) []
  status := .running
  out := []
  draws := 0
  params := p

/-- `start` with the word at 0x100. -/
def startAt (p : Config.Params) (w : Word) (regs : List (RegIdx × Word))
    (bytes : List (Nat × Byte)) : State :=
  (start p regs bytes).placeWord w

/-- A view of the next state, if there is one. -/
def look {α : Type} (r : Result) (f : State → α) : Option α :=
  match r with
  | .next t => some (f t)
  | .fault _ => none
  | .refused _ => none

/-- Register i and pc after one step of the word, if the run goes on. -/
def after (p : Config.Params) (w : Word) (regs : List (RegIdx × Word)) (bytes : List (Nat × Byte))
    (i : RegIdx) : Option (RegCell × Word × Status) :=
  look (step (startAt p w regs bytes)) fun t => (t.reg i, t.pc, t.status)

/-- The bytes 80 7F 34 12 at 0x200 (L2.4). -/
def loadBytes : List (Nat × Byte) := [(0x200, 0x80), (0x201, 0x7F), (0x202, 0x34), (0x203, 0x12)]

/-! ## WellFormed: a term that passes and one that is refused, for each check -/

theorem test_wellFormed_srli :
    (Instr.srli 1 2 4 0x01).wellFormed false = true ∧
    (Instr.srli 1 2 4 0x20).wellFormed false = false := by decide

theorem test_wellFormed_slt_strict :
    (Instr.slt 3 1 2 0x01).wellFormed false = true ∧
    (Instr.slt 3 1 2 0x00).wellFormed true = true ∧
    (Instr.slt 3 1 2 0x01).wellFormed true = false := by decide

theorem test_wellFormed_and_strict :
    (Instr.and 3 1 2 0x01).wellFormed false = true ∧
    (Instr.and 3 1 2 0x00).wellFormed true = true ∧
    (Instr.and 3 1 2 0x01).wellFormed true = false := by decide

/-! ## Words: every constructor, decoded and encoded -/

theorem test_words_op_a :
    decode false 0x002081B3 = .ok (.add 3 1 2) ∧ encode (.add 3 1 2) = 0x002081B3 ∧
    decode false 0x402081B3 = .ok (.sub 3 1 2) ∧ encode (.sub 3 1 2) = 0x402081B3 ∧
    decode false 0x002091B3 = .ok (.sll 3 1 2) ∧ encode (.sll 3 1 2) = 0x002091B3 ∧
    decode false 0x0020A1B3 = .ok (.slt 3 1 2 0) ∧ encode (.slt 3 1 2 0) = 0x0020A1B3 ∧
    decode false 0x0020C1B3 = .ok (.xor 3 1 2) ∧ encode (.xor 3 1 2) = 0x0020C1B3 ∧
    decode false 0x0020D1B3 = .ok (.srl 3 1 2) ∧ encode (.srl 3 1 2) = 0x0020D1B3 := by decide

theorem test_words_op_b :
    decode false 0x4020D1B3 = .ok (.sra 3 1 2) ∧ encode (.sra 3 1 2) = 0x4020D1B3 ∧
    decode false 0x0020E1B3 = .ok (.or 3 1 2) ∧ encode (.or 3 1 2) = 0x0020E1B3 ∧
    decode false 0x0020F1B3 = .ok (.and 3 1 2 0) ∧ encode (.and 3 1 2 0) = 0x0020F1B3 ∧
    decode false 0x022081B3 = .ok (.mul 3 1 2) ∧ encode (.mul 3 1 2) = 0x022081B3 ∧
    decode false 0x022091B3 = .ok (.mulh 3 1 2) ∧ encode (.mulh 3 1 2) = 0x022091B3 ∧
    decode false 0x0220C1B3 = .ok (.div 3 1 2) ∧ encode (.div 3 1 2) = 0x0220C1B3 ∧
    decode false 0x0220E1B3 = .ok (.rem 3 1 2) ∧ encode (.rem 3 1 2) = 0x0220E1B3 := by decide

theorem test_words_lsgt :
    decode false 0x002081AA = .ok (.lsgt 3 1 2 0 0) ∧ encode (.lsgt 3 1 2 0 0) = 0x002081AA ∧
    decode false 0xFE20F1AA = .ok (.lsgt 3 1 2 7 0x7F) ∧
    encode (.lsgt 3 1 2 7 0x7F) = 0xFE20F1AA := by decide

theorem test_words_op_imm_a :
    decode false 0xFFF10093 = .ok (.addi 1 2 0xFFF) ∧ encode (.addi 1 2 0xFFF) = 0xFFF10093 ∧
    decode false 0x01F11093 = .ok (.slli 1 2 31 0) ∧ encode (.slli 1 2 31 0) = 0x01F11093 ∧
    decode false 0x40311093 = .ok (.slli 1 2 3 0x20) ∧ encode (.slli 1 2 3 0x20) = 0x40311093 ∧
    decode false 0xFFF12093 = .ok (.slti 1 2 0xFFF) ∧ encode (.slti 1 2 0xFFF) = 0xFFF12093 ∧
    decode false 0x00113093 = .ok (.opimmInvalid 1 2 1) ∧
    encode (.opimmInvalid 1 2 1) = 0x00113093 := by decide

theorem test_words_op_imm_b :
    decode false 0xFFF14093 = .ok (.xori 1 2 0xFFF) ∧ encode (.xori 1 2 0xFFF) = 0xFFF14093 ∧
    decode false 0x02415093 = .ok (.srli 1 2 4 0x01) ∧ encode (.srli 1 2 4 0x01) = 0x02415093 ∧
    decode false 0x41F15093 = .ok (.srai 1 2 31) ∧ encode (.srai 1 2 31) = 0x41F15093 ∧
    decode false 0x80016093 = .ok (.ori 1 2 0x800) ∧ encode (.ori 1 2 0x800) = 0x80016093 ∧
    decode false 0x0FF17093 = .ok (.andi 1 2 0x0FF) ∧ encode (.andi 1 2 0x0FF) = 0x0FF17093 := by
  decide

theorem test_words_memory :
    decode false 0x00130283 = .ok (.lb 5 6 1) ∧ encode (.lb 5 6 1) = 0x00130283 ∧
    decode false 0x00231283 = .ok (.lh 5 6 2) ∧ encode (.lh 5 6 2) = 0x00231283 ∧
    decode false 0xFFC32283 = .ok (.lw 5 6 0xFFC) ∧ encode (.lw 5 6 0xFFC) = 0xFFC32283 ∧
    decode false 0x00530023 = .ok (.sb 6 5 0 0) ∧ encode (.sb 6 5 0 0) = 0x00530023 ∧
    decode false 0x00531123 = .ok (.sh 6 5 0 2) ∧ encode (.sh 6 5 0 2) = 0x00531123 ∧
    decode false 0xFE532E23 = .ok (.sw 6 5 0x7F 0x1C) ∧
    encode (.sw 6 5 0x7F 0x1C) = 0xFE532E23 := by decide

theorem test_words_control :
    decode false 0x00208463 = .ok (.beq 1 2 0 8) ∧ encode (.beq 1 2 0 8) = 0x00208463 ∧
    decode false 0xFE209CE3 = .ok (.bne 1 2 0x7F 0x19) ∧
    encode (.bne 1 2 0x7F 0x19) = 0xFE209CE3 ∧
    decode false 0x010000EF = .ok (.jal 1 0x01000) ∧ encode (.jal 1 0x01000) = 0x010000EF ∧
    decode false 0x00008067 = .ok (.jalrUnhandled 0 1 0 0) ∧
    encode (.jalrUnhandled 0 1 0 0) = 0x00008067 := by decide

theorem test_words_upper_and_ecall :
    decode false 0x123450B7 = .ok (.lui 1 0x12345) ∧ encode (.lui 1 0x12345) = 0x123450B7 ∧
    decode false 0x00001097 = .ok (.auipcUnhandled 1 1) ∧
    encode (.auipcUnhandled 1 1) = 0x00001097 ∧
    decode false 0x00000073 = .ok (.ecall 0 0 0 0) ∧ encode (.ecall 0 0 0 0) = 0x00000073 ∧
    decode false 0x00100073 = .ok (.ecall 0 0 0 1) ∧
    encode (.ecall 0 0 0 1) = 0x00100073 := by decide

/-- Words bit by bit from the formats of R62 to R67 and the selectors of R78 to R82, one per format and
family: sub x3,x1,x2; lsgt x3,x1,x2; srai x1,x2,4; lh x5,2(x6); sw x5,-4(x6); bne x1,x2,-8 (offset
bits 1 1111 1111 1000: imm[12], imm[10:5], imm[4:1], imm[11]); jal x1,16; lui x1,0x12345; ecall. -/
theorem test_words_bit_by_bit :
    decode false (0b0100000#7 ++ 0b00010#5 ++ 0b00001#5 ++ 0b000#3 ++ 0b00011#5 ++ 0b0110011#7) =
      .ok (.sub 3 1 2) ∧
    decode false (0b0000000#7 ++ 0b00010#5 ++ 0b00001#5 ++ 0b000#3 ++ 0b00011#5 ++ 0b0101010#7) =
      .ok (.lsgt 3 1 2 0 0) ∧
    decode false (0b0100000#7 ++ 0b00100#5 ++ 0b00010#5 ++ 0b101#3 ++ 0b00001#5 ++ 0b0010011#7) =
      .ok (.srai 1 2 4) ∧
    decode false (0b000000000010#12 ++ 0b00110#5 ++ 0b001#3 ++ 0b00101#5 ++ 0b0000011#7) =
      .ok (.lh 5 6 2) ∧
    decode false (0b1111111#7 ++ 0b00101#5 ++ 0b00110#5 ++ 0b010#3 ++ 0b11100#5 ++ 0b0100011#7) =
      .ok (.sw 6 5 0x7F 0x1C) ∧
    decode false (0b1#1 ++ 0b111111#6 ++ 0b00010#5 ++ 0b00001#5 ++ 0b001#3 ++ 0b1100#4 ++ 0b1#1 ++
      0b1100011#7) = .ok (.bne 1 2 0x7F 0x19) ∧
    decode false (0b0#1 ++ 0b0000001000#10 ++ 0b0#1 ++ 0b00000000#8 ++ 0b00001#5 ++ 0b1101111#7) =
      .ok (.jal 1 0x01000) ∧
    decode false (0b00010010001101000101#20 ++ 0b00001#5 ++ 0b0110111#7) = .ok (.lui 1 0x12345) ∧
    decode false (0b000000000000#12 ++ 0b00000#5 ++ 0b000#3 ++ 0b00000#5 ++ 0b1110011#7) =
      .ok (.ecall 0 0 0 0) := by decide

/-- Words that are no instruction (L2.1, L2.4, L2.5, L2.8). -/
theorem test_words_rejected :
    decode false 0x000000FF = .error (.unknownOpcode 0x000000FF) ∧
    decode false 0x00000000 = .error (.unknownOpcode 0x00000000) ∧
    decode false 0x0000000F = .error (.unknownOpcode 0x0000000F) ∧
    decode false 0x0020B1B3 = .error (.invalidInstruction 0x0020B1B3) ∧
    decode false 0x4020C1B3 = .error (.invalidInstruction 0x4020C1B3) ∧
    decode true 0x0220F1B3 = .error (.invalidInstruction 0x0220F1B3) ∧
    decode false 0x00034283 = .error (.invalidInstruction 0x00034283) ∧
    decode false 0x0020C463 = .error (.invalidInstruction 0x0020C463) := by decide

/-- L1 rows 1 and 2: sext_12 of 0x7FF and 0x800, sext_1 of 1, sext_32. -/
theorem test_sext :
    signExtend 0x7FF#12 = 0x000007FF ∧ signExtend 0x800#12 = 0xFFFFF800 ∧
    sextN 1 1 = 0xFFFFFFFF ∧ sextN 32 0x89ABCDEF = 0x89ABCDEF := by decide

/-! ## One step of each instruction -/

theorem test_add_wraps_sign :
    after small 0x002081B3 [(1, 0x7FFFFFFF), (2, 1)] [] 3 =
      some (.val 0x80000000, 0x104, .running) := by decide

theorem test_add_same_register :
    after small 0x001080B3 [(1, 0x15)] [] 1 = some (.val 0x2A, 0x104, .running) := by decide

theorem test_sub_borrows :
    after small 0x402081B3 [(1, 5), (2, 7)] [] 3 = some (.val 0xFFFFFFFE, 0x104, .running) := by
  decide

theorem test_sll_count_is_low_five_bits :
    after small 0x002091B3 [(1, 0x12345678), (2, 0xFFFFFFE4)] [] 3 =
      some (.val 0x23456780, 0x104, .running) := by decide

theorem test_slt_is_signed :
    after small 0x0020A1B3 [(1, 0x80000000), (2, 0x7FFFFFFF)] [] 3 =
      some (.val 1, 0x104, .running) := by decide

theorem test_xor :
    after small 0x0020C1B3 [(1, 0xFF00FF00), (2, 0x0F0F0F0F)] [] 3 =
      some (.val 0xF00FF00F, 0x104, .running) := by decide

theorem test_srl_count_33 :
    after small 0x0020D1B3 [(1, 0x80000000), (2, 0x21)] [] 3 =
      some (.val 0x40000000, 0x104, .running) := by decide

theorem test_sra_keeps_sign :
    after small 0x4020D1B3 [(1, 0x80000000), (2, 4)] [] 3 =
      some (.val 0xF8000000, 0x104, .running) := by decide

theorem test_or :
    after small 0x0020E1B3 [(1, 0xF0), (2, 0x0F)] [] 3 = some (.val 0xFF, 0x104, .running) := by
  decide

theorem test_and_funct7_not_examined :
    after small 0x0220F1B3 [(1, 0x0000FFFF), (2, 0x00FF00FF)] [] 3 =
      some (.val 0x000000FF, 0x104, .running) := by decide

theorem test_mul_low_word :
    after small 0x022081B3 [(1, 0xFFFFFFFD), (2, 7)] [] 3 =
      some (.val 0xFFFFFFEB, 0x104, .running) := by decide

theorem test_mulh_wide :
    after small 0x022091B3 [(1, 0x80000000), (2, 0x7FFFFFFF)] [] 3 =
      some (.val 0x80000001, 0x104, .running) := by decide

theorem test_mulh_narrow :
    after { small with mulhMode := .narrow32 } 0x022091B3 [(1, 0x40000000), (2, 2)] [] 3 =
      some (.val 0xFFFFFFFF, 0x104, .running) := by decide

theorem test_div_rounds_toward_zero :
    after small 0x0220C1B3 [(1, 0xFFFFFFF9), (2, 2)] [] 3 =
      some (.val 0xFFFFFFFD, 0x104, .running) := by decide

theorem test_div_by_zero :
    after small 0x0220C1B3 [(1, 5), (2, 0), (3, 0x55555555)] [] 3 =
      some (.val 0x55555555, 0x100, .failed (.divideFault 0x0220C1B3)) := by decide

theorem test_rem_sign_of_dividend :
    after small 0x0220E1B3 [(1, 0xFFFFFFF9), (2, 0xFFFFFFFE)] [] 3 =
      some (.val 0xFFFFFFFF, 0x104, .running) := by decide

theorem test_rem_corner_riscv :
    after { small with divCorner := .riscv } 0x0220E1B3 [(1, 5), (2, 0)] [] 3 =
      some (.val 5, 0x104, .running) := by decide

theorem test_lsgt_negative_word :
    after small 0x002081AA [(1, 0), (2, 0x200), (3, 0x11)]
      [(0x200, 0xFF), (0x201, 0xFF), (0x202, 0xFF), (0x203, 0xFF)] 3 =
      some (.val 0xFFFFFFFF, 0x104, .running) := by decide

theorem test_lsgt_equal_writes_nothing :
    after small 0x002081AA [(1, 7), (2, 0x200), (3, 0x11)] [(0x200, 7)] 3 =
      some (.val 0x11, 0x104, .running) := by decide

theorem test_addi_sign_extends :
    after small 0x80010093 [(2, 0)] [] 1 = some (.val 0xFFFFF800, 0x104, .running) := by decide

theorem test_addi_x0_discard :
    after { small with x0Policy := .discard } 0x00500013 [(0, 0)] [] 0 =
      some (.val 0, 0x104, .running) := by decide

theorem test_slli_31 :
    after small 0x01F11093 [(2, 1)] [] 1 = some (.val 0x80000000, 0x104, .running) := by decide

theorem test_slti_minus_one :
    after small 0xFFF12093 [(2, 0xFFFFFFFE)] [] 1 = some (.val 1, 0x104, .running) := by decide

theorem test_opimm_invalid_goes_on :
    look (step (startAt small 0x00113093 [] [])) (fun t => (t.pc, t.status, t.out, t.draws)) =
      some (0x104, .running, [.diag (.invalidInstruction 0x00113093)], 1) := by decide

theorem test_opimm_invalid_fatal :
    after { small with opimmInvalid := .fatal } 0x00113093 [] [] 1 =
      some (.unset, 0x100, .failed (.invalidInstruction 0x00113093)) := by decide

theorem test_xori_sign_extends :
    after small 0xFFF14093 [(2, 0x0000FFFF)] [] 1 =
      some (.val 0xFFFF0000, 0x104, .running) := by decide

theorem test_srli_upper_not_0x20 :
    after small 0x02415093 [(2, 0x80000000)] [] 1 =
      some (.val 0x08000000, 0x104, .running) := by decide

theorem test_srai_31 :
    after small 0x41F15093 [(2, 0x80000000)] [] 1 =
      some (.val 0xFFFFFFFF, 0x104, .running) := by decide

theorem test_ori_sign_extends :
    after small 0x80016093 [(2, 0)] [] 1 = some (.val 0xFFFFF800, 0x104, .running) := by decide

theorem test_andi_sign_extends :
    after small 0x80017093 [(2, 0x12345678)] [] 1 =
      some (.val 0x12345000, 0x104, .running) := by decide

theorem test_lb_sign_extends :
    after small 0x00030283 [(6, 0x200)] loadBytes 5 =
      some (.val 0xFFFFFF80, 0x104, .running) := by decide

theorem test_lb_last_byte_and_beyond :
    after small 0x00030283 [(6, 0x3FF)] [] 5 = some (.val 0, 0x104, .running) ∧
    after small 0xFFF30283 [(6, 0)] [] 5 =
      some (.unset, 0x100, .failed (.invalidRead 0xFFFFFFFF)) := by decide

theorem test_lh_unaligned :
    after small 0x00131283 [(6, 0x200)] loadBytes 5 =
      some (.val 0x0000347F, 0x104, .running) := by decide

theorem test_lw_base_is_destination :
    after small 0x00032303 [(6, 0x200)] loadBytes 6 =
      some (.val 0x12347F80, 0x104, .running) := by decide

theorem test_lw_bounds :
    after small 0x00032283 [(6, 0x3FC)] [] 5 = some (.val 0, 0x104, .running) ∧
    after small 0x00032283 [(6, 0x3FD)] [] 5 =
      some (.unset, 0x100, .failed (.invalidRead 0x3FD)) := by decide

/-- The bytes from 0x200 to 0x204 after one step of the word. -/
def bytesAfter (w : Word) (regs : List (RegIdx × Word)) : Option (List Byte) :=
  look (step (startAt small w regs [])) fun t => (List.range 5).map fun k => t.mem.read (0x200 + k)

theorem test_sb_low_byte :
    bytesAfter 0x00530023 [(5, 0x12345678), (6, 0x200)] = some [0x78, 0, 0, 0, 0] := by decide

theorem test_sh_low_half :
    bytesAfter 0x00531123 [(5, 0x12345678), (6, 0x200)] = some [0, 0, 0x78, 0x56, 0] := by decide

theorem test_sw_unaligned :
    bytesAfter 0x005320A3 [(5, 0xAABBCCDD), (6, 0x200)] =
      some [0, 0xDD, 0xCC, 0xBB, 0xAA] := by decide

theorem test_sw_out_of_bounds_changes_nothing :
    look (step (startAt small 0xFE532FA3 [(5, 0xAABBCCDD), (6, 0x3FE)] []))
      (fun t => (t.mem.read 0x3FD, t.mem.read 0x3FF, t.status)) =
      some (0, 0, .failed (.invalidWrite 0x3FD)) := by decide

theorem test_beq_taken_forward :
    after small 0x00208463 [(1, 1), (2, 1)] [] 1 = some (.val 1, 0x108, .running) := by decide

theorem test_beq_wraps :
    after small 0xEE208EE3 [(1, 1), (2, 1)] [] 1 = some (.val 1, 0xFFFFFFFC, .running) := by decide

theorem test_bne_taken_backward :
    after small 0xFE209CE3 [(1, 1), (2, 2)] [] 1 = some (.val 1, 0x0F8, .running) := by decide

theorem test_bne_not_taken :
    after small 0xFE209CE3 [(1, 1), (2, 1)] [] 1 = some (.val 1, 0x104, .running) := by decide

theorem test_jal_links_and_jumps :
    after small 0x010000EF [] [] 1 = some (.val 0x104, 0x110, .running) := by decide

theorem test_jal_extremes :
    after small 0x7FFFF0EF [] [] 1 = some (.val 0x104, 0x001000FE, .running) ∧
    after small 0x800000EF [] [] 1 = some (.val 0x104, 0xFFF00100, .running) := by decide

theorem test_jalr_unhandled :
    after small 0x00008067 [(1, 0)] [] 1 =
      some (.val 0, 0x100, .failed (.unhandledOpcode 0x00008067)) := by decide

theorem test_lui :
    after small 0xFFFFF0B7 [] [] 1 = some (.val 0xFFFFF000, 0x104, .running) := by decide

theorem test_auipc_unhandled :
    after small 0x00001097 [] [] 1 =
      some (.unset, 0x100, .failed (.unhandledOpcode 0x00001097)) := by decide

/-- Syscalls 1, 4, 10, 11 and an unknown one (L2.7); the banner here is one byte. -/
theorem test_ecall_output :
    look (step (startAt small 0x00000073 [(10, 1), (11, 0xFFFFFFFB)] [])) (fun t => (t.out, t.pc)) =
      some ([.console 0x2D, .console 0x35], 0x104) ∧
    look (step (startAt small 0x00000073 [(10, 4), (11, 0x3FE)] [(0x3FE, 0x41), (0x3FF, 0x42)]))
      (fun t => (t.out, t.pc)) = some ([.console 0x41, .console 0x42], 0x104) ∧
    look (step (startAt small 0x30200073 [(10, 11), (11, 0x141)] [])) (fun t => (t.out, t.pc)) =
      some ([.console 0x41], 0x104) := by decide

theorem test_ecall_ends :
    look (step (startAt small 0x00000073 [(10, 10)] [])) (fun t => (t.out, t.pc, t.status)) =
      some ([.console 0x2E], 0x100, .exited) ∧
    look (step (startAt small 0x00000073 [(10, 0x101)] [])) (fun t => (t.out, t.pc, t.status)) =
      some ([.diag (.illegalSyscall 0x101)], 0x100, .failed (.illegalSyscall 0x101)) := by decide

theorem test_decimal_most_negative :
    decimal (0x80000000#32).toInt =
      [0x2D, 0x32, 0x31, 0x34, 0x37, 0x34, 0x38, 0x33, 0x36, 0x34, 0x38] := by decide

/-! ## Fetch (L2.8) and register reads -/

theorem test_fetch_misaligned :
    look (step ((start small [] []).jump 0x102)) (fun t => (t.pc, t.status)) =
      some (0x102, .failed (.misalignedFetch 0x102)) := by decide

theorem test_fetch_out_of_bounds :
    look (step ((start small [] []).jump 0x400)) (fun t => t.status) =
      some (.failed (.invalidRead 0x400)) := by decide

theorem test_unset_register :
    after small 0x002081B3 [(2, 1)] [] 3 = some (.unset, 0x100, .failed (.unsetRegister 1)) := by
  decide

/-! ## Reset -/

theorem test_reset :
    State.reset.pc = 0 ∧ State.reset.status = .running ∧ State.reset.out = [] ∧
    State.reset.mem = [] ∧ State.reset.reg 31 = .val 0 := by decide

/-- The first instruction after reset is the placed one: addi x1,x2,-1 with x2 = 0 (L2.3). -/
theorem test_first_instruction :
    look (step (State.reset.withFetchWord 32 0xFFF10093)) (fun t => (t.reg 1, t.pc)) =
      some (.val 0xFFFFFFFF, 4) := by decide

/-! ## Witnesses: the hypotheses of each obligation can be met, each clause at a boundary value -/

/-- Registers x1 and x2 hold the two values; every other register is unset. -/
def two (p : Config.Params) (a b : Word) : State := start p [(1, a), (2, b)] []

/-- x10 and x11 hold the two values; every other register is unset. -/
def sys (n a : Word) : State := start small [(10, n), (11, a)] [(0x3FF, 0x41)]

/-- `small` with X0_POLICY = DISCARD. -/
def discarding : Config.Params := { small with x0Policy := .discard }

/-- `small` with FETCH_MISALIGNED = PERMIT. -/
def permitting : Config.Params := { small with fetchMisaligned := .permit }

theorem witness_DecodeOfEncode :
    (Instr.srli 31 31 31 0x7F).wellFormed true = true ∧
    (Instr.slt 31 31 31 0).wellFormed true = true ∧
    (Instr.and 31 31 31 0x7F).wellFormed false = true := by decide

theorem witness_EncodeOfDecode :
    decode true 0xFFFFFFF3 = .ok (.ecall 31 31 7 0xFFF) ∧
    decode false 0xFE20F1B3 = .ok (.and 3 1 2 0x7F) := by decide

/-- A running state whose fetch gives w. -/
abbrev Fetches (p : Config.Params) (w : Word) : Prop :=
  (startAt p w [] []).status = .running ∧ fetch (startAt p w [] []) = .ok w

theorem witness_UnrecognisedOpcodeFails :
    Fetches small 0x000000FF ∧ opcodeOf 0x000000FF ∉ recognisedOpcodes := by decide

/-- The lowest and the highest unmapped funct3 of each opcode. -/
theorem witness_UnmappedFunct3Fails :
    (Fetches small 0x00033283 ∧ unmappedFunct3 0x00033283) ∧
    (Fetches small 0x00537023 ∧ unmappedFunct3 0x00537023) ∧
    (Fetches small 0x0020A463 ∧ unmappedFunct3 0x0020A463) ∧ ¬ unmappedFunct3 0x00032283 := by
  unfold unmappedFunct3; decide

/-- funct3 3, an unmapped funct7, and AND with funct7 1 under each STRICT_FUNCT7. -/
theorem witness_UnmappedOpSelectorsFail :
    (Fetches small 0x0020B1B3 ∧ unmappedOp false 0x0020B1B3) ∧
    (Fetches small 0x4020C1B3 ∧ unmappedOp false 0x4020C1B3) ∧
    (Fetches { small with strictFunct7 := true } 0x0220F1B3 ∧ unmappedOp true 0x0220F1B3) ∧
    ¬ unmappedOp false 0x0220F1B3 := by
  unfold unmappedOp; decide

/-- n at both ends of its range; the last two values are L1 row 2's. -/
theorem witness_SignExtendContract :
    1 ≤ 1 ∧ 1 ≤ 32 ∧ 32 ≤ 32 ∧ (sextN 1 1).toInt = -1 ∧ (sextN 32 0x80000000).toInt = -2 ^ 31 := by
  decide

/-- Aligned at the last word of memory, and misaligned under PERMIT. -/
theorem witness_StepRunsDecodedBytes :
    (let s := ((start small [] []).jump 0x3FC).placeWord 0x00008067
     s.status = .running ∧ (s.params.fetchMisaligned = .fault → s.pc.toNat % 4 = 0) ∧
     s.pc.toNat + 4 ≤ s.params.memSize ∧
     decodeBytes s.params.strictFunct7 [s.mem.read s.pc.toNat, s.mem.read (s.pc.toNat + 1),
       s.mem.read (s.pc.toNat + 2), s.mem.read (s.pc.toNat + 3)] =
         .ok (.jalrUnhandled 0 1 0 0, [])) ∧
    (let s := ((start permitting [] []).jump 0x102).placeWord 0x00008067
     s.status = .running ∧ (s.params.fetchMisaligned = .fault → s.pc.toNat % 4 = 0) ∧
     s.pc.toNat + 4 ≤ s.params.memSize ∧
     decodeBytes s.params.strictFunct7 [s.mem.read s.pc.toNat, s.mem.read (s.pc.toNat + 1),
       s.mem.read (s.pc.toNat + 2), s.mem.read (s.pc.toNat + 3)] =
         .ok (.jalrUnhandled 0 1 0 0, [])) := by decide

/-- The three clauses: pc = 0x402 is misaligned and out of bounds, 0x400 and (under PERMIT) 0x3FD are
just out of bounds, 0x3FC and (under PERMIT) 0x3FB just in. -/
theorem witness_FetchChecksInOrder :
    (small.fetchMisaligned = .fault ∧ (0x402#32).toNat % 4 ≠ 0) ∧
    ((0x400#32).toNat % 4 = 0 ∧ small.memSize < (0x400#32).toNat + 4) ∧
    (permitting.fetchMisaligned = .permit ∧ permitting.memSize < (0x3FD#32).toNat + 4) ∧
    ((0x3FC#32).toNat % 4 = 0 ∧ (0x3FC#32).toNat + 4 ≤ small.memSize) ∧
    ((0x3FB#32).toNat + 4 ≤ permitting.memSize) ∧ (start small [] []).status = .running := by decide

theorem witness_StepStopsWhenEnded :
    step { start small [] [] with status := .exited } = .fault (.runEnded .exited) := rfl

theorem witness_RunningStepCompletes : (start small [] []).status = .running := rfl

/-- One instance per kind: 1, 2 (fatal and reported), 3 and 8. -/
theorem witness_DiagnosticRecordsFetchedWord :
    (let s := startAt small 0x000000FF [] []
     fetch s = .ok 0x000000FF#32 ∧
     look (step s) (·.out) = some (s.out ++ [.diag (.unknownOpcode 0x000000FF)])) ∧
    (let s := startAt small 0x0020B1B3 [] []
     fetch s = .ok 0x0020B1B3#32 ∧
     look (step s) (·.out) = some (s.out ++ [.diag (.invalidInstruction 0x0020B1B3)])) ∧
    (let s := startAt small 0x00113093 [] []
     fetch s = .ok 0x00113093#32 ∧
     look (step s) (·.out) = some (s.out ++ [.diag (.invalidInstruction 0x00113093)])) ∧
    (let s := startAt small 0x00001097 [] []
     fetch s = .ok 0x00001097#32 ∧
     look (step s) (·.out) = some (s.out ++ [.diag (.unhandledOpcode 0x00001097)])) ∧
    (let s := startAt small 0x0220C1B3 [(1, 5), (2, 0)] []
     fetch s = .ok 0x0220C1B3#32 ∧
     look (step s) (·.out) = some (s.out ++ [.diag (.divideFault 0x0220C1B3)])) := by decide

theorem witness_FetchSeesEarlierStore :
    let s := start small [(5, 0x00008067), (6, 0x3FC)] []
    s.mem.wf ∧ s.reg 6 = .val 0x3FC ∧ s.reg 5 = .val 0x00008067 ∧
    (storeAddress 0x3FC 0 0).toNat % 4 = 0 ∧
    (storeAddress 0x3FC 0 0).toNat + 4 ≤ s.params.memSize ∧
    ∃ t, exec (.sw 6 5 0 0) s = .next t := by
  exact ⟨by decide, by decide, by decide, by decide, by decide, _, rfl⟩

theorem witness_UnsetSourceRaises :
    (∀ rd rs1 f3 imm, Instr.add 3 1 2 ≠ .ecall rd rs1 f3 imm) ∧
    (Instr.add 3 1 2).reads.find? (fun j => (start small [(1, 1)] []).reg j == .unset) = some 2 ∧
    (Instr.add 3 1 2).reads.find? (fun j => (start small [] []).reg j == .unset) = some 1 ∧
    (start small [] []).reg 10 = .unset ∧
    ((start small [(10, 4)] []).reg 10 = .val 4 ∧ (start small [(10, 4)] []).reg 11 = .unset) := by
  refine ⟨fun _ _ _ _ h => ?_, by decide, by decide, by decide, by decide⟩
  cases h

theorem witness_UnreadRegisterIrrelevant :
    3 ∉ (Instr.add 3 1 2).reads ∧ 0 ∉ (Instr.ecall 0 0 0 0).reads ∧
    1 ∉ (Instr.opimmInvalid 2 1 0).reads := by decide

theorem witness_OnlyDestinationWritten :
    (∃ t, exec (.add 3 1 2) (two small 1 2) = .next t) ∧ (Instr.add 3 1 2).dest ≠ some 1 ∧
    (Instr.sw 1 2 0 0).dest ≠ some 0 := ⟨⟨_, rfl⟩, by decide, by decide⟩

theorem witness_MemoryChangedOnlyByStores :
    (Instr.lw 5 6 0).stores = false ∧ (∃ t, exec (.lw 5 6 0) (start small [(6, 0x200)] []) = .next t) :=
  ⟨rfl, _, rfl⟩

/-- The premises of `ReadsTwo` and `ReadsOne` over x1 and x2: both hold values, or one holds none. -/
theorem witness_ReadsTwo :
    ((two small 5 7).reg 1 = .val 5 ∧ (two small 5 7).reg 2 = .val 7) ∧
    ((start small [(1, 1)] []).reg 2 = .unset) ∧ ((start small [(2, 1)] []).reg 1 = .unset) := by decide

theorem witness_AddSubResults :
    (two small 0xFFFFFFFF 1).reg 1 = .val 0xFFFFFFFF ∧ (two small 0xFFFFFFFF 1).reg 2 = .val 1 := by
  decide

theorem witness_XorOrResults :
    (two small 0xF0 0x0F).reg 1 = .val 0xF0 ∧ (two small 0xF0 0x0F).reg 2 = .val 0x0F := by decide

/-- STRICT_FUNCT7 both ways, and both orders of the operands. -/
theorem witness_SetLessAndResults :
    ((true = false) ∨ (0 : BitVec 7) = 0x00) ∧ ((false = false) ∨ (0x7F : BitVec 7) = 0x00) ∧
    (0x80000000#32).toInt < (0x7FFFFFFF#32).toInt ∧ (5#32).toInt ≤ (5#32).toInt ∧
    (two small 5 5).reg 1 = .val 5 ∧ (two small 5 5).reg 2 = .val 5 := by decide

theorem witness_ShiftResults :
    (two small 1 0x20).reg 1 = .val 1 ∧ (two small 1 0x20).reg 2 = .val 0x20 := by decide

theorem witness_MulResult :
    (two small 0x80000000 0xFFFFFFFF).reg 1 = .val 0x80000000 ∧
    (two small 0x80000000 0xFFFFFFFF).reg 2 = .val 0xFFFFFFFF := by decide

theorem witness_MulhResult :
    small.mulhMode = .wide64 ∧ { small with mulhMode := .narrow32 }.mulhMode = .narrow32 ∧
    (two small 0x80000000 0x80000000).reg 1 = .val 0x80000000 ∧
    (two { small with mulhMode := .narrow32 } 1 2).reg 2 = .val 2 := by decide

/-- The three clauses of DIV and REM: next to a corner case, and both corner cases under each mode. -/
theorem witness_DivResult :
    (¬ corner 0x80000001 0xFFFFFFFF ∧ ¬ corner 0x80000000 1) ∧
    (corner 5 0 ∧ corner 0x80000000 0xFFFFFFFF) ∧
    small.divCorner = .fault ∧ { small with divCorner := .riscv }.divCorner = .riscv ∧
    (two small 0x80000000 0xFFFFFFFF).reg 1 = .val 0x80000000 ∧
    (two small 0x80000000 0xFFFFFFFF).reg 2 = .val 0xFFFFFFFF := by
  refine ⟨⟨?_, ?_⟩, ⟨?_, ?_⟩, ?_⟩ <;> (try unfold corner) <;> decide

theorem witness_RemResult :
    ¬ corner 0x7FFFFFFF 0xFFFFFFFF ∧ corner 0x80000000 0xFFFFFFFF ∧ corner 0 0 ∧
    (two small 7 0).reg 1 = .val 7 ∧ (two small 7 0).reg 2 = .val 0 := by
  refine ⟨?_, ?_, ?_, ?_⟩ <;> (try unfold corner) <;> decide

/-- LSGT: the last word in memory and the first beyond it; greater and not greater, signed and
unsigned. -/
theorem witness_LsgtResult :
    ((0x3FC#32).toNat + 4 ≤ small.memSize ∧ small.memSize < (0x3FD#32).toNat + 4) ∧
    (two small 0 0x3FC).reg 1 = .val 0 ∧ (two small 0 0x3FC).reg 2 = .val 0x3FC ∧
    (small.lsgtCompare = .signed ∧ (0xFFFFFFFF#32).toInt < (0#32).toInt) ∧
    ({ small with lsgtCompare := .unsigned }.lsgtCompare = .unsigned ∧
      (6#32).toNat < (7#32).toNat) ∧
    ¬ (0#32).toInt < (0#32).toInt ∧ wordAt (two small 0 0x3FC) 0x3FC = 0 := by decide

theorem witness_AddSetLessImmediateResults :
    (two small 0xFFFFFFFE 0).reg 1 = .val 0xFFFFFFFE ∧ (start small [] []).reg 1 = .unset ∧
    (0xFFFFFFFE#32).toInt < (0xFFF#12).toInt ∧ (0xFFF#12).toInt ≤ (0xFFFFFFFF#32).toInt := by decide

theorem witness_LogicImmediateResults :
    (two small 0x0000FFFF 0).reg 1 = .val 0x0000FFFF ∧ (start small [] []).reg 1 = .unset := by decide

theorem witness_ShiftImmediateResults :
    (two small 0x80000000 0).reg 1 = .val 0x80000000 ∧ (start small [] []).reg 1 = .unset ∧
    (0x1F : BitVec 7) ≠ 0x20 ∧ (0x21 : BitVec 7) ≠ 0x20 := by decide

theorem witness_InvalidOpImmEffect :
    (start small [] []).params.opimmInvalid = .goOn ∧
    (start { small with opimmInvalid := .fatal } [] []).params.opimmInvalid = .fatal := by decide

/-- The last 1, 2 and 4 bytes of memory, and one byte further. -/
theorem witness_LoadResults :
    (let ea : Word := BitVec.ofInt 32 ((0x400#32).toNat + (0xFFF#12).toInt)
     ea.toNat + 1 ≤ small.memSize ∧ small.memSize < ea.toNat + 2) ∧
    (let ea : Word := BitVec.ofInt 32 ((0x400#32).toNat + (0xFFE#12).toInt)
     ea.toNat + 2 ≤ small.memSize ∧ small.memSize < ea.toNat + 4) ∧
    (let ea : Word := BitVec.ofInt 32 ((0x400#32).toNat + (0xFFC#12).toInt)
     ea.toNat + 4 ≤ small.memSize) ∧
    small.memSize < (BitVec.ofInt 32 ((0#32).toNat + (0xFFF#12).toInt) : Word).toNat + 1 ∧
    (two small 0x400 0).reg 1 = .val 0x400 ∧ (start small [] []).reg 1 = .unset := by decide

theorem witness_StoreResults :
    (let ea : Word := BitVec.ofInt 32 ((0x400#32).toNat + (0x7F#7 ++ 0x1C#5).toInt)
     ea.toNat + 4 ≤ small.memSize) ∧
    (let ea : Word := BitVec.ofInt 32 ((0x400#32).toNat + (0x7F#7 ++ 0x1F#5).toInt)
     ea.toNat + 1 ≤ small.memSize ∧ small.memSize < ea.toNat + 2 ∧
     small.memSize < ea.toNat + 4) ∧
    small.memSize < (BitVec.ofInt 32 ((0x400#32).toNat + (0#7 ++ 0#5).toInt) : Word).toNat + 1 ∧
    (two small 0x400 9).mem.wf ∧ (two small 0x400 9).reg 1 = .val 0x400 ∧
    (two small 0x400 9).reg 2 = .val 9 := by decide

theorem witness_StoreThenLoadGivesValueBack :
    (start small [] loadBytes).mem.wf ∧ (0x3FC#32).toNat + 4 ≤ small.memSize ∧
    (0x3FF#32).toNat + 1 ≤ small.memSize ∧ (0x3FE#32).toNat + 2 ≤ small.memSize := by decide

theorem witness_BranchResults :
    (two small 1 1).reg 1 = .val 1 ∧ (two small 1 1).reg 2 = .val 1 ∧
    (two small 1 2).reg 2 = .val 2 ∧ (1 : Word) ≠ 2 := by decide

theorem witness_LuiThenAddiBuildsConstant :
    ¬ (small.x0Policy = .discard ∧ (0 : RegIdx) = 0) ∧
    ¬ (discarding.x0Policy = .discard ∧ (1 : RegIdx) = 0) := by decide

theorem witness_PrintIntegerEffect :
    (sys 1 0x80000000).reg 10 = .val 1 ∧ (sys 1 0x80000000).reg 11 = .val 0x80000000 := by decide

theorem witness_PrintStringEffect :
    (sys 4 0x3FF).reg 10 = .val 4 ∧ (sys 4 0x3FF).reg 11 = .val 0x3FF := by decide

theorem witness_ExitEffect : (start small [(10, 10)] []).reg 10 = .val 10 := by decide

theorem witness_PrintCharacterEffect :
    (sys 11 0x141).reg 10 = .val 11 ∧ (sys 11 0x141).reg 11 = .val 0x141 := by decide

theorem witness_IllegalSyscallRaises :
    (sys 0 0).reg 10 = .val 0 ∧ (0 : Word) ∉ ([1, 4, 10, 11] : List Word) ∧
    (sys 0x101 0).reg 10 = .val 0x101 ∧ (0x101 : Word) ∉ ([1, 4, 10, 11] : List Word) := by decide

/-- The invariant holds of a state under each X0_POLICY, and a step from it goes on. -/
theorem witness_StepKeepsInvariants :
    (startAt small 0x00530023 [(5, 1), (6, 0x3FF)] []).Inv ∧
    (startAt discarding 0x00500013 [(0, 0)] []).Inv ∧
    (look (step (startAt small 0x00530023 [(5, 1), (6, 0x3FF)] [])) (·.pc) = some 0x104) := by decide

theorem witness_LaunchState :
    small.wf ∧ discarding.wf ∧ (start small [] loadBytes).mem.wf ∧
    ∀ c ∈ (start small [] loadBytes).mem, c.1 < small.memSize := by decide

theorem witness_PcStaysEven :
    (startAt small 0x002000EF [] []).pc.toNat % 2 = 0 ∧
    look (step (startAt small 0x002000EF [] [])) (·.pc) = some 0x102 := by decide

theorem witness_X0KeptUnderDiscard :
    let s := startAt discarding 0x0080006F [(0, 0)] []
    s.params.x0Policy = .discard ∧ look (step s) (fun t => (t.reg 0, t.pc)) = some (.val 0, 0x108) := by
  decide

theorem witness_OutputOnlyGrows :
    look (step (startAt small 0x00000073 [(10, 11), (11, 0x41)] [])) (·.out) =
      some [.console 0x41] := by decide

theorem witness_FailedStepIsPrecise :
    look (step (startAt small 0x00008067 [] [])) (·.status) =
      some (.failed (.unhandledOpcode 0x00008067)) := by decide

/-- One step to Exited(0): k = 1, so j = 0 and u is the start. -/
theorem witness_RunEndsOnlyByExitSyscall :
    let s := startAt small 0x00000073 [(10, 10)] []
    s.status = .running ∧ look (Host.Core.run core 1 s) (fun t => t.status) = some .exited := by decide

theorem witness_DrawsOnlyMatterToInvalidOpImm :
    let s := startAt small 0x002081B3 [] []
    s.status = .running ∧ ∀ rd rs1 imm, fetchDecode s ≠ .ok (.opimmInvalid rd rs1 imm) := by
  have h : fetchDecode (startAt small 0x002081B3 [] []) = .ok (.add 3 1 2) := by decide
  refine ⟨by decide, fun rd rs1 imm h' => ?_⟩
  cases h.symm.trans h'

end Sys2Proof.Tests
end

/-! # Scope (spec/00_scope.md): the invariant of a run, sign extension, the launch, and arbitrary draws -/

namespace Sys2Proof.Machine

/-! ## What each form of a next state does to the fields of the invariant -/

/-- Under X0_POLICY = DISCARD no register write reaches x0 (R21). -/
theorem State.reg_zero_writeReg_of_discard {s : State} (hx : s.params.x0Policy = .discard)
    (i : RegIdx) (v : Word) : (s.writeReg i v).reg 0 = s.reg 0 := by
  rw [State.reg_writeReg, if_neg]
  rintro ⟨rfl, hkept⟩
  exact hkept ⟨hx, rfl⟩

theorem NextForm.params_eq {i : Instr} {s t : State} (h : NextForm i s t) : t.params = s.params := by
  cases h <;> simp

theorem NextForm.reg_zero_eq_of_discard {i : Instr} {s t : State} (h : NextForm i s t)
    (hx : s.params.x0Policy = .discard) : t.reg 0 = s.reg 0 := by
  cases h with
  | wrote rd v => exact State.reg_zero_writeReg_of_discard hx rd v
  | linked rd => exact State.reg_zero_writeReg_of_discard hx rd _
  | drew rd rs1 imm e =>
    exact State.reg_zero_writeReg_of_discard (s := s.report e) hx rd s.drawn
  | raised | advanced | branched | stored | printed | exited => simp

/-- An instruction leaves the memory alone or makes one store that the bounds check admits (R44). -/
theorem NextForm.mem_eq_or_store {i : Instr} {s t : State} (h : NextForm i s t) :
    t.mem = s.mem ∨ ∃ a n v, s.admits a n = true ∧ t.mem = s.mem.store a.toNat n v := by
  cases h with
  | stored a n v _ ha => exact .inr ⟨a, n, v, ha, rfl⟩
  | raised | wrote | advanced | branched | linked | drew | printed | exited => exact .inl (by simp)

/-! ## The invariant -/

/-- A store the bounds check admits lists no byte at or beyond N (R30, R44). -/
theorem Memory.store_below {m : Memory} {a n N : Nat} (v : Word) (hm : ∀ c ∈ m, c.1 < N)
    (ha : a + n ≤ N) : ∀ c ∈ m.store a n v, c.1 < N := by
  intro c hc
  rcases Memory.mem_store hc with hold | ⟨-, hnew⟩
  · exact hm c hold
  · omega

theorem NextForm.inv {i : Instr} {s t : State} (h : NextForm i s t) (hs : s.Inv) : t.Inv := by
  obtain ⟨hparams, hwf, hbelow, hx0⟩ := hs
  have hx0' : s.params.x0Policy = .discard → t.reg 0 = .val 0 := fun hx =>
    (h.reg_zero_eq_of_discard hx).trans (hx0 hx)
  rw [State.Inv, h.params_eq]
  rcases h.mem_eq_or_store with hmem | ⟨a, n, v, ha, hmem⟩
  · rw [hmem]
    exact ⟨hparams, hwf, hbelow, hx0'⟩
  · rw [hmem]
    exact ⟨hparams, Memory.wf_store hwf _ _ _,
      Memory.store_below v hbelow (State.admits_iff.1 ha), hx0'⟩

theorem State.inv_raise {s : State} (e : Err) (hs : s.Inv) : (s.raise e).Inv := hs

/-- Settles O48: a step raises or executes an instruction; every form of the next state keeps the
parameters and, under DISCARD, x0, and changes memory at most by one admitted store. -/
theorem stepKeepsInvariants : Obligations.StepKeepsInvariants := by
  intro s t hs hstep
  obtain ⟨-, ⟨e, -, rfl⟩ | ⟨i, -, hexec⟩⟩ := step_next hstep
  · exact State.inv_raise e hs
  · exact (exec_next hexec).inv hs

/-! ## Sign extension (R11) -/

/-- `sext_n` read signed is the low n bits read signed. -/
theorem toInt_sextN {n : Nat} (hn : n ≤ 32) (v : Word) :
    (sextN n v).toInt = (v.extractLsb' 0 n).toInt :=
  BitVec.toInt_signExtend_of_le hn

/-- Settles O9: sign extension keeps the signed reading of the field, whose sign bit is bit n - 1. -/
theorem signExtendContract : Obligations.SignExtendContract := by
  intro n v hpos hn
  have hsign : (v.extractLsb' 0 n).msb = v.getLsbD (n - 1) := by
    have hlast : n - 1 < n := by omega
    simp only [BitVec.msb_eq_getLsbD_last, BitVec.getLsbD_extractLsb', hlast, decide_true,
      Bool.true_and, Nat.zero_add]
  have hvalue : (v.extractLsb' 0 n).toNat = v.toNat % 2 ^ n := by simp
  rw [toInt_sextN hn, BitVec.toInt_eq_msb_cond, hsign, hvalue]
  push_cast
  rfl

/-! ## OPIMM-INVALID (R140) -/

/-- A raise answers as R220 says. -/
theorem raisesOn_raised (s : State) (e : Err) : RaisesOn (s.raised e) s e :=
  ⟨s.raise e, rfl, fun _ => rfl, fun _ => rfl, rfl, rfl, rfl, rfl, rfl, rfl⟩

theorem decode_opimmInvalid (strict : Bool) (rd rs1 : RegIdx) (imm : BitVec 12) :
    decode strict (packI imm rs1 0x3 rd 0x13) = .ok (.opimmInvalid rd rs1 imm) := by
  simp [decode, decodeOpImm]

theorem execOpimmInvalid_goOn {s : State} (hp : s.params.opimmInvalid = .goOn) (rd rs1 : RegIdx)
    (imm : BitVec 12) :
    execOpimmInvalid rd rs1 imm s = .next ((((s.report (.invalidInstruction
      (encode (.opimmInvalid rd rs1 imm)))).writeReg rd s.drawn).afterDraw).advance) := by
  simp only [execOpimmInvalid, hp]

theorem execOpimmInvalid_fatal {s : State} (hp : s.params.opimmInvalid = .fatal) (rd rs1 : RegIdx)
    (imm : BitVec 12) :
    execOpimmInvalid rd rs1 imm s =
      s.raised (.invalidInstruction (encode (.opimmInvalid rd rs1 imm))) := by
  simp only [execOpimmInvalid, hp]

/-- Settles O34, by the two settings of OPIMM_INVALID_POLICY. -/
theorem invalidOpImmEffect : Obligations.InvalidOpImmEffect := by
  intro strict s rd rs1 imm w
  refine ⟨decode_opimmInvalid strict rd rs1 imm, fun hgoOn => ?_, fun hfatal => ?_⟩
  · refine ⟨_, execOpimmInvalid_goOn hgoOn rd rs1 imm, fun j => ?_, ?_⟩
    · exact State.reg_writeReg (s.report _) rd j s.drawn
    · simp [w, encode]
  · change RaisesOn (execOpimmInvalid rd rs1 imm s) s _
    rw [execOpimmInvalid_fatal hfatal]
    exact raisesOn_raised s _

/-! ## The launch (R35, R250) -/

/-- The registers a launch leaves: the caller's, but 0 in x0 under X0_POLICY = DISCARD (R22). -/
theorem State.reg_launch (p : Config.Params) (pc : Word) (regs : Vector RegCell 32) (mem : Memory)
    (j : RegIdx) : (State.launch p pc regs mem).reg j =
      if p.x0Policy = .discard ∧ j = 0 then .val 0 else regs[j.toNat]'j.isLt := by
  have hzero : 0 = j.toNat ↔ j = 0 := (BitVec.toNat_inj (x := 0)).trans eq_comm
  unfold State.reg State.launch
  by_cases hx : p.x0Policy = .discard
  · simp [hx, Vector.getElem_set, hzero]
  · simp [hx]

theorem State.inv_launch {p : Config.Params} {mem : Memory} (hp : p.wf) (hm : mem.wf)
    (hbelow : ∀ c ∈ mem, c.1 < p.memSize) (pc : Word) (regs : Vector RegCell 32) :
    (State.launch p pc regs mem).Inv :=
  ⟨hp, hm, hbelow, fun hx => (State.reg_launch p pc regs mem 0).trans (if_pos ⟨hx, rfl⟩)⟩

/-- Settles O50. -/
theorem launchState : Obligations.LaunchState := fun p pc regs mem =>
  ⟨rfl, rfl, rfl, rfl, rfl, State.reg_launch p pc regs mem,
    fun hp hm hbelow => State.inv_launch hp hm hbelow pc regs⟩

/-- The defaults of R8 are in R8's ranges. -/
theorem defaults_wf : Config.defaults.wf :=
  ⟨by simp [Config.defaults], Nat.le_refl _, failStatus_ne_zero⟩

/-- Settles O49: reset is a launch with parameters in their ranges and an empty memory. -/
theorem resetMeetsInvariants : Obligations.ResetMeetsInvariants :=
  State.inv_launch defaults_wf State.reset_mem_wf (fun _ hc => absurd hc List.not_mem_nil) _ _

/-! ## Arbitrary draws (R15, R256) -/

/-- s with another count of draws. -/
def State.withDraws (s : State) (n : Nat) : State := { s with draws := n }

theorem State.withDraws_writeReg (s : State) (n : Nat) (i : RegIdx) (v : Word) :
    (s.withDraws n).writeReg i v = (s.writeReg i v).withDraws n := by
  unfold State.writeReg
  rw [apply_ite (State.withDraws · n)]
  rfl

/-- r, an answer from s, is a next state that has drawn nothing, and r', an answer from s with the
count n, is the same next state but for that count. -/
def BlindToDraws (s : State) (n : Nat) (r r' : Result) : Prop :=
  ∃ t, r = .next t ∧ t.draws = s.draws ∧ r' = .next (t.withDraws n)

namespace BlindToDraws

variable {s : State} {n : Nat}

theorem next {t : State} (h : t.draws = s.draws) :
    BlindToDraws s n (.next t) (.next (t.withDraws n)) := ⟨t, rfl, h, rfl⟩

theorem raised (e : Err) : BlindToDraws s n (s.raised e) ((s.withDraws n).raised e) :=
  next (State.raise_draws s e)

theorem advance : BlindToDraws s n (.next s.advance) (.next (s.withDraws n).advance) :=
  next (State.advance_draws s)

theorem writeReg_advance (rd : RegIdx) (v : Word) :
    BlindToDraws s n (.next (s.writeReg rd v).advance)
      (.next ((s.withDraws n).writeReg rd v).advance) := by
  rw [State.withDraws_writeReg]
  exact next (by simp)

theorem emit_advance (bytes : List Byte) :
    BlindToDraws s n (.next (s.emit bytes).advance) (.next ((s.withDraws n).emit bytes).advance) :=
  next (State.emit_draws s bytes)

theorem ite {c : Prop} [Decidable c] {r₁ r₁' r₂ r₂' : Result} (h₁ : BlindToDraws s n r₁ r₁')
    (h₂ : BlindToDraws s n r₂ r₂') :
    BlindToDraws s n (if c then r₁ else r₂) (if c then r₁' else r₂') := by
  split
  · exact h₁
  · exact h₂

/-! ### The operations -/

theorem withReg {i : RegIdx} {k k' : Word → Result} (h : ∀ v, BlindToDraws s n (k v) (k' v)) :
    BlindToDraws s n (withReg s i k) (withReg (s.withDraws n) i k') := by
  cases hr : s.reg i with
  | unset =>
    rw [withReg_of_unset k hr, withReg_of_unset (s := s.withDraws n) k' hr]
    exact raised _
  | val v =>
    rw [withReg_of_val k hr, withReg_of_val (s := s.withDraws n) k' hr]
    exact h v

theorem withLoad {a : Word} {len : Nat} {k k' : Word → Result}
    (h : ∀ v, BlindToDraws s n (k v) (k' v)) :
    BlindToDraws s n (withLoad s a len k) (withLoad (s.withDraws n) a len k') :=
  ite (h _) (raised _)

/-! ### The handlers -/

variable {rd rs1 rs2 : RegIdx}

theorem registerOp {f : Word → Word → Word} :
    BlindToDraws s n (registerOp s rd rs1 rs2 f) (registerOp (s.withDraws n) rd rs1 rs2 f) :=
  withReg fun _ => withReg fun _ => writeReg_advance _ _

theorem divideOp {w : Word} {f corner : Word → Word → Word} :
    BlindToDraws s n (divideOp s w rd rs1 rs2 f corner)
      (divideOp (s.withDraws n) w rd rs1 rs2 f corner) := by
  refine withReg fun a => withReg fun b => ite ?_ (writeReg_advance _ _)
  rw [show (s.withDraws n).params.divCorner = s.params.divCorner from rfl]
  cases s.params.divCorner with
  | fault => exact raised _
  | riscv => exact writeReg_advance _ _

theorem immediateOp {f : Word → Word} :
    BlindToDraws s n (immediateOp s rd rs1 f) (immediateOp (s.withDraws n) rd rs1 f) :=
  withReg fun _ => writeReg_advance _ _

theorem loadOp {imm : BitVec 12} {len : Nat} {extend : Word → Word} :
    BlindToDraws s n (loadOp s rd rs1 imm len extend)
      (loadOp (s.withDraws n) rd rs1 imm len extend) :=
  withReg fun _ => withLoad fun _ => writeReg_advance _ _

theorem storeOp {hi : BitVec 7} {lo : BitVec 5} {len : Nat} :
    BlindToDraws s n (storeOp s rs1 rs2 hi lo len) (storeOp (s.withDraws n) rs1 rs2 hi lo len) :=
  withReg fun _ => withReg fun _ => ite (next rfl) (raised _)

theorem branchOp {hi : BitVec 7} {lo : BitVec 5} {taken : Word → Word → Bool} :
    BlindToDraws s n (branchOp s rs1 rs2 hi lo taken)
      (branchOp (s.withDraws n) rs1 rs2 hi lo taken) :=
  withReg fun _ => withReg fun _ => ite (next rfl) advance

theorem execLsgt {f3 : BitVec 3} {f7 : BitVec 7} :
    BlindToDraws s n (execLsgt rd rs1 rs2 f3 f7 s) (execLsgt rd rs1 rs2 f3 f7 (s.withDraws n)) :=
  withReg fun _ => withReg fun _ => withLoad fun _ => ite (writeReg_advance _ _) advance

theorem execJal {imm : BitVec 20} :
    BlindToDraws s n (execJal rd imm s) (execJal rd imm (s.withDraws n)) := by
  unfold Machine.execJal
  rw [State.withDraws_writeReg]
  exact next (by simp)

theorem execEcall {f3 : BitVec 3} {imm : BitVec 12} :
    BlindToDraws s n (execEcall rd rs1 f3 imm s) (execEcall rd rs1 f3 imm (s.withDraws n)) := by
  have print (f : Word → List Byte) : BlindToDraws s n
      (Machine.withReg s 11 fun a => .next (s.emit (f a)).advance)
      (Machine.withReg (s.withDraws n) 11 fun a => .next ((s.withDraws n).emit (f a)).advance) :=
    withReg fun _ => emit_advance _
  have exit : BlindToDraws s n (exitRun s) (exitRun (s.withDraws n)) := next rfl
  exact withReg fun _ => ite (print _) (ite (print _) (ite exit (ite (print _) (raised _))))

/-- Every instruction but OPIMM-INVALID is blind to the draws. -/
theorem exec {i : Instr} (h : ∀ rd rs1 imm, i ≠ .opimmInvalid rd rs1 imm) :
    BlindToDraws s n (exec i s) (exec i (s.withDraws n)) := by
  cases i with
  | add | sub | sll | slt | xor | srl | sra | or | and | mul | mulh => exact registerOp
  | div | rem => exact divideOp
  | lsgt rd rs1 rs2 f3 f7 => exact execLsgt (f3 := f3) (f7 := f7)
  | addi | slli | slti | xori | srli | srai | ori | andi => exact immediateOp
  | opimmInvalid rd rs1 imm => exact absurd rfl (h rd rs1 imm)
  | lb | lh | lw => exact loadOp
  | sb | sh | sw => exact storeOp
  | beq | bne => exact branchOp
  | jal => exact execJal
  | jalrUnhandled | auipcUnhandled => exact raised _
  | lui => exact writeReg_advance _ _
  | ecall rd rs1 f3 imm => exact execEcall (rd := rd) (rs1 := rs1) (f3 := f3) (imm := imm)

end BlindToDraws

/-! ### A step in a running state -/

theorem step_of_fetchDecode_error {s : State} {e : Err} (hr : s.status = .running)
    (h : fetchDecode s = .error e) : step s = s.raised e := by
  simp only [step, hr, h]

theorem step_of_fetchDecode_ok {s : State} {i : Instr} (hr : s.status = .running)
    (h : fetchDecode s = .ok i) : step s = exec i s := by
  simp only [step, hr, h]

/-- Settles O56: fetch and decode do not look at the count of draws, and neither does the raise or
the instruction they lead to. -/
theorem drawsOnlyMatterToInvalidOpImm : Obligations.DrawsOnlyMatterToInvalidOpImm := by
  intro s n hr hne
  have hsame : fetchDecode (s.withDraws n) = fetchDecode s := rfl
  change BlindToDraws s n (step s) (step (s.withDraws n))
  cases hf : fetchDecode s with
  | error e =>
    rw [step_of_fetchDecode_error hr hf,
      step_of_fetchDecode_error (s := s.withDraws n) hr (hsame.trans hf)]
    exact .raised e
  | ok i =>
    rw [step_of_fetchDecode_ok hr hf,
      step_of_fetchDecode_ok (s := s.withDraws n) hr (hsame.trans hf)]
    exact .exec fun rd rs1 imm hi => hne rd rs1 imm (hi ▸ hf)

end Sys2Proof.Machine

/-! # State (spec/10_state.md): what an instruction reads and writes, and what a run keeps -/

namespace Sys2Proof.Machine

/-! ## A register that is not read (R23) -/

/-- s and s' agree in everything but perhaps in what register k holds. -/
structure State.AgreeBut (k : RegIdx) (s s' : State) : Prop where
  reg : ∀ j, j ≠ k → s'.reg j = s.reg j
  pc : s'.pc = s.pc
  mem : s'.mem = s.mem
  status : s'.status = s.status
  out : s'.out = s.out
  draws : s'.draws = s.draws
  params : s'.params = s.params

namespace State.AgreeBut

variable {k : RegIdx} {s s' : State}

theorem setReg (s : State) (k : RegIdx) (c : RegCell) :
    AgreeBut k s { s with regs := s.regs.set k.toNat c k.isLt } where
  reg j hj := Vector.getElem_set_ne k.isLt j.isLt fun h => hj (BitVec.eq_of_toNat_eq h.symm)
  pc := rfl
  mem := rfl
  status := rfl
  out := rfl
  draws := rfl
  params := rfl

theorem admits (h : AgreeBut k s s') (a : Word) (n : Nat) : s'.admits a n = s.admits a n := by
  simp only [State.admits, h.params]

theorem jump (h : AgreeBut k s s') (a : Word) : AgreeBut k (s.jump a) (s'.jump a) :=
  { h with pc := rfl }

theorem advance (h : AgreeBut k s s') : AgreeBut k s.advance s'.advance :=
  { h with pc := by simp [h.pc] }

theorem raise (h : AgreeBut k s s') (e : Err) : AgreeBut k (s.raise e) (s'.raise e) :=
  { h with out := by simp [h.out], status := rfl }

theorem report (h : AgreeBut k s s') (e : Err) : AgreeBut k (s.report e) (s'.report e) :=
  { h with out := by simp [h.out] }

theorem emit (h : AgreeBut k s s') (bytes : List Byte) :
    AgreeBut k (s.emit bytes) (s'.emit bytes) :=
  { h with out := by simp [h.out] }

theorem haltSuccess (h : AgreeBut k s s') : AgreeBut k s.haltSuccess s'.haltSuccess :=
  { h with status := rfl }

theorem afterDraw (h : AgreeBut k s s') : AgreeBut k s.afterDraw s'.afterDraw :=
  { h with draws := by simp [h.draws] }

theorem withMem (h : AgreeBut k s s') (m : Memory) :
    AgreeBut k { s with mem := m } { s' with mem := m } :=
  { h with mem := rfl }

theorem writeReg (h : AgreeBut k s s') (i : RegIdx) (v : Word) :
    AgreeBut k (s.writeReg i v) (s'.writeReg i v) where
  reg j hj := by rw [State.reg_writeReg, State.reg_writeReg, h.params, h.reg j hj]
  pc := by simp [h.pc]
  mem := by simp [h.mem]
  status := by simp [h.status]
  out := by simp [h.out]
  draws := by simp [h.draws]
  params := by simp [h.params]

end State.AgreeBut

/-- r and r' are next states that agree in everything but perhaps in what register k holds. -/
def NextAgreeBut (k : RegIdx) (r r' : Result) : Prop :=
  ∃ t t', r = .next t ∧ r' = .next t' ∧ t.AgreeBut k t'

namespace NextAgreeBut

variable {k : RegIdx} {s s' : State}

theorem next {t t' : State} (h : t.AgreeBut k t') : NextAgreeBut k (.next t) (.next t') :=
  ⟨t, t', rfl, rfl, h⟩

theorem ite {c : Prop} [Decidable c] {r₁ r₁' r₂ r₂' : Result} (h₁ : NextAgreeBut k r₁ r₁')
    (h₂ : NextAgreeBut k r₂ r₂') :
    NextAgreeBut k (if c then r₁ else r₂) (if c then r₁' else r₂') := by
  split
  · exact h₁
  · exact h₂

section

variable (h : s.AgreeBut k s')
include h

theorem raised (e : Err) : NextAgreeBut k (s.raised e) (s'.raised e) := next (h.raise e)

theorem writeReg_advance (rd : RegIdx) (v : Word) :
    NextAgreeBut k (.next (s.writeReg rd v).advance) (.next (s'.writeReg rd v).advance) :=
  next (h.writeReg rd v).advance

theorem emit_advance (bytes : List Byte) :
    NextAgreeBut k (.next (s.emit bytes).advance) (.next (s'.emit bytes).advance) :=
  next (h.emit bytes).advance

/-! ### The operations -/

theorem of_withReg {i : RegIdx} {f f' : Word → Result} (hi : k ≠ i)
    (hf : ∀ v, NextAgreeBut k (f v) (f' v)) : NextAgreeBut k (withReg s i f) (withReg s' i f') := by
  have hsame : s'.reg i = s.reg i := h.reg i hi.symm
  cases hr : s.reg i with
  | unset =>
    rw [withReg_of_unset f hr, withReg_of_unset f' (hsame.trans hr)]
    exact raised h _
  | val v =>
    rw [withReg_of_val f hr, withReg_of_val f' (hsame.trans hr)]
    exact hf v

theorem of_withReg_withReg {i j : RegIdx} {f f' : Word → Word → Result} (hk : k ∉ [i, j])
    (hf : ∀ a b, NextAgreeBut k (f a b) (f' a b)) :
    NextAgreeBut k (withReg s i fun a => withReg s j (f a))
      (withReg s' i fun a => withReg s' j (f' a)) := by
  obtain ⟨hi, hj⟩ : k ≠ i ∧ k ≠ j := by simpa using hk
  exact of_withReg h hi fun a => of_withReg h hj (hf a)

theorem of_withLoad {a : Word} {n : Nat} {f f' : Word → Result}
    (hf : ∀ v, NextAgreeBut k (f v) (f' v)) :
    NextAgreeBut k (withLoad s a n f) (withLoad s' a n f') := by
  unfold withLoad
  rw [h.admits, h.mem]
  exact ite (hf _) (raised h _)

/-! ### The handlers -/

variable {rd rs1 rs2 : RegIdx}

theorem of_registerOp {f : Word → Word → Word} (hk : k ∉ [rs1, rs2]) :
    NextAgreeBut k (registerOp s rd rs1 rs2 f) (registerOp s' rd rs1 rs2 f) :=
  of_withReg_withReg h hk fun _ _ => writeReg_advance h _ _

theorem of_divideOp {w : Word} {f corner : Word → Word → Word} (hk : k ∉ [rs1, rs2]) :
    NextAgreeBut k (divideOp s w rd rs1 rs2 f corner) (divideOp s' w rd rs1 rs2 f corner) := by
  refine of_withReg_withReg h hk fun a b => ite ?_ (writeReg_advance h _ _)
  rw [h.params]
  cases s.params.divCorner with
  | fault => exact raised h _
  | riscv => exact writeReg_advance h _ _

theorem of_immediateOp {f : Word → Word} (hk : k ∉ [rs1]) :
    NextAgreeBut k (immediateOp s rd rs1 f) (immediateOp s' rd rs1 f) :=
  of_withReg h (List.ne_of_not_mem_cons hk) fun _ => writeReg_advance h _ _

theorem of_loadOp {imm : BitVec 12} {n : Nat} {extend : Word → Word} (hk : k ∉ [rs1]) :
    NextAgreeBut k (loadOp s rd rs1 imm n extend) (loadOp s' rd rs1 imm n extend) :=
  of_withReg h (List.ne_of_not_mem_cons hk) fun _ => of_withLoad h fun _ => writeReg_advance h _ _

theorem of_storeOp {hi : BitVec 7} {lo : BitVec 5} {n : Nat} (hk : k ∉ [rs1, rs2]) :
    NextAgreeBut k (storeOp s rs1 rs2 hi lo n) (storeOp s' rs1 rs2 hi lo n) := by
  refine of_withReg_withReg h hk fun base v => ?_
  unfold withStore
  rw [h.admits, h.mem]
  exact ite (next (h.withMem _).advance) (raised h _)

theorem of_branchOp {hi : BitVec 7} {lo : BitVec 5} {taken : Word → Word → Bool}
    (hk : k ∉ [rs1, rs2]) :
    NextAgreeBut k (branchOp s rs1 rs2 hi lo taken) (branchOp s' rs1 rs2 hi lo taken) := by
  refine of_withReg_withReg h hk fun a b => ?_
  rw [h.pc]
  exact ite (next (h.jump _)) (next h.advance)

theorem of_execLsgt {f3 : BitVec 3} {f7 : BitVec 7} (hk : k ∉ [rs1, rs2]) :
    NextAgreeBut k (execLsgt rd rs1 rs2 f3 f7 s) (execLsgt rd rs1 rs2 f3 f7 s') := by
  refine of_withReg_withReg h hk fun a addr => of_withLoad h fun m => ?_
  rw [h.params]
  exact ite (writeReg_advance h _ _) (next h.advance)

theorem of_execOpimmInvalid {imm : BitVec 12} :
    NextAgreeBut k (execOpimmInvalid rd rs1 imm s) (execOpimmInvalid rd rs1 imm s') := by
  have hdrawn : s'.drawn = s.drawn := congrArg Config.draw32 h.draws
  cases hp : s.params.opimmInvalid with
  | goOn =>
    rw [execOpimmInvalid_goOn hp, execOpimmInvalid_goOn (h.params ▸ hp), hdrawn]
    exact next ((h.report _).writeReg _ _).afterDraw.advance
  | fatal =>
    rw [execOpimmInvalid_fatal hp, execOpimmInvalid_fatal (h.params ▸ hp)]
    exact raised h _

theorem of_execJal {imm : BitVec 20} : NextAgreeBut k (execJal rd imm s) (execJal rd imm s') := by
  unfold execJal
  rw [h.pc]
  exact next ((h.writeReg _ _).jump _)

theorem of_execEcall {f3 : BitVec 3} {imm : BitVec 12} (hk : k ∉ [10, 11]) :
    NextAgreeBut k (execEcall rd rs1 f3 imm s) (execEcall rd rs1 f3 imm s') := by
  obtain ⟨h10, h11⟩ : k ≠ 10 ∧ k ≠ 11 := by simpa using hk
  have print (f : Word → List Byte) : NextAgreeBut k
      (withReg s 11 fun a => .next (s.emit (f a)).advance)
      (withReg s' 11 fun a => .next (s'.emit (f a)).advance) :=
    of_withReg h h11 fun _ => emit_advance h _
  have string : NextAgreeBut k (printString s) (printString s') := by
    unfold printString
    rw [h.mem, h.params]
    exact print _
  have exit : NextAgreeBut k (exitRun s) (exitRun s') := by
    unfold exitRun
    rw [h.params]
    exact next (h.emit _).haltSuccess
  exact of_withReg h h10 fun _ =>
    ite (print _) (ite string (ite exit (ite (print _) (raised h _))))

/-- An instruction that does not read k takes states that agree but in k to such states. -/
theorem of_exec {i : Instr} (hk : k ∉ i.reads) : NextAgreeBut k (exec i s) (exec i s') := by
  cases i with
  | add | sub | sll | slt | xor | srl | sra | or | and | mul => exact of_registerOp h hk
  | mulh rd rs1 rs2 =>
    change NextAgreeBut k (execMulh rd rs1 rs2 s) (execMulh rd rs1 rs2 s')
    unfold execMulh
    rw [h.params]
    exact of_registerOp h hk
  | div | rem => exact of_divideOp h hk
  | lsgt rd rs1 rs2 f3 f7 => exact of_execLsgt (f3 := f3) (f7 := f7) h hk
  | addi | slli | slti | xori | srli | srai | ori | andi => exact of_immediateOp h hk
  | opimmInvalid => exact of_execOpimmInvalid h
  | lb | lh | lw => exact of_loadOp h hk
  | sb | sh | sw => exact of_storeOp h hk
  | beq | bne => exact of_branchOp h hk
  | jal => exact of_execJal h
  | jalrUnhandled | auipcUnhandled => exact raised h _
  | lui => exact writeReg_advance h _ _
  | ecall rd rs1 f3 imm => exact of_execEcall (rd := rd) (rs1 := rs1) (f3 := f3) (imm := imm) h hk

end

end NextAgreeBut

/-- Settles O19: a state and the same state with another content of k agree but in k, and an
instruction that does not read k keeps that. -/
theorem unreadRegisterIrrelevant : Obligations.UnreadRegisterIrrelevant := by
  intro i s k c hk
  obtain ⟨t, t', ht, ht', hagree⟩ := NextAgreeBut.of_exec (State.AgreeBut.setReg s k c) hk
  exact ⟨t, t', ht, ht', hagree.reg, hagree.pc, hagree.mem, hagree.status, hagree.out,
    hagree.draws, hagree.params⟩

/-! ## A register that is read and holds no value (R22, R225) -/

theorem raisesOn_withReg {s : State} {i : RegIdx} (f : Word → Result) (h : s.reg i = .unset) :
    RaisesOn (withReg s i f) s (.unsetRegister i) := by
  rw [withReg_of_unset f h]
  exact raisesOn_raised s _

/-- Of the registers a handler reads, the first that holds no value. -/
def firstUnset (s : State) (reads : List RegIdx) : Option RegIdx :=
  reads.find? fun j => s.reg j == .unset

theorem firstUnset_cons {s : State} {i r : RegIdx} {rest : List RegIdx}
    (h : firstUnset s (i :: rest) = some r) :
    (s.reg i = .unset ∧ r = i) ∨ ∃ v, s.reg i = .val v ∧ firstUnset s rest = some r := by
  cases hr : s.reg i with
  | unset => exact .inl ⟨rfl, by simpa [firstUnset, hr] using h.symm⟩
  | val v => exact .inr ⟨v, rfl, by simpa [firstUnset, hr] using h⟩

theorem raisesOn_withReg_of_firstUnset {s : State} {i r : RegIdx} {f : Word → Result}
    {rest : List RegIdx} (h : firstUnset s (i :: rest) = some r)
    (hf : ∀ v, firstUnset s rest = some r → RaisesOn (f v) s (.unsetRegister r)) :
    RaisesOn (withReg s i f) s (.unsetRegister r) := by
  obtain ⟨hu, rfl⟩ | ⟨v, hv, hrest⟩ := firstUnset_cons h
  · exact raisesOn_withReg f hu
  · rw [withReg_of_val f hv]
    exact hf v hrest

theorem raisesOn_readOne {s : State} {rs1 r : RegIdx} {f : Word → Result}
    (h : firstUnset s [rs1] = some r) : RaisesOn (withReg s rs1 f) s (.unsetRegister r) :=
  raisesOn_withReg_of_firstUnset h nofun

theorem raisesOn_readTwo {s : State} {rs1 rs2 r : RegIdx} {f : Word → Word → Result}
    (h : firstUnset s [rs1, rs2] = some r) :
    RaisesOn (withReg s rs1 fun a => withReg s rs2 (f a)) s (.unsetRegister r) :=
  raisesOn_withReg_of_firstUnset h fun _ => raisesOn_readOne

theorem raisesOn_exec_of_firstUnset {i : Instr} {s : State} {r : RegIdx}
    (hne : ∀ rd rs1 f3 imm, i ≠ .ecall rd rs1 f3 imm) (h : firstUnset s i.reads = some r) :
    RaisesOn (exec i s) s (.unsetRegister r) := by
  cases i with
  | add | sub | sll | slt | xor | srl | sra | or | and | mul | mulh | div | rem | lsgt
  | sb | sh | sw | beq | bne => exact raisesOn_readTwo h
  | addi | slli | slti | xori | srli | srai | ori | andi | lb | lh | lw => exact raisesOn_readOne h
  | opimmInvalid | jal | jalrUnhandled | lui | auipcUnhandled => cases h
  | ecall rd rs1 f3 imm => exact absurd rfl (hne rd rs1 f3 imm)

/-- The syscalls 1, 4 and 11 read x11 (R202, R203, R205). -/
theorem raisesOn_execEcall_of_x11_unset {s : State} (rd rs1 : RegIdx) (f3 : BitVec 3)
    (imm : BitVec 12) (h10 : s.reg 10 = .val 1 ∨ s.reg 10 = .val 4 ∨ s.reg 10 = .val 11)
    (h11 : s.reg 11 = .unset) :
    RaisesOn (execEcall rd rs1 f3 imm s) s (.unsetRegister 11) := by
  unfold execEcall
  rcases h10 with h | h | h <;> rw [withReg_of_val _ h] <;> exact raisesOn_withReg _ h11

/-- Settles O18. -/
theorem unsetSourceRaises : Obligations.UnsetSourceRaises :=
  ⟨fun _ _ _ hne h => raisesOn_exec_of_firstUnset hne h, fun _ rd rs1 f3 imm =>
    ⟨raisesOn_withReg _, raisesOn_execEcall_of_x11_unset rd rs1 f3 imm⟩⟩

/-! ## What an instruction writes (R23) -/

theorem State.reg_writeReg_of_ne {s : State} {i j : RegIdx} (v : Word) (h : j ≠ i) :
    (s.writeReg i v).reg j = s.reg j := by
  rw [State.reg_writeReg, if_neg fun hw => h hw.1]

theorem NextForm.reg_eq_of_not_dest {i : Instr} {s t : State} (h : NextForm i s t) {j : RegIdx}
    (hj : i.dest ≠ some j) : t.reg j = s.reg j := by
  have hne {rd : RegIdx} (hd : i.dest = some rd) : j ≠ rd := fun hjrd => hj (hjrd ▸ hd)
  cases h with
  | wrote rd v hd => exact State.reg_writeReg_of_ne v (hne hd)
  | linked rd imm hd => exact State.reg_writeReg_of_ne _ (hne hd)
  | drew rd rs1 imm e hi =>
    exact State.reg_writeReg_of_ne (s := s.report e) _ (hne (congrArg Instr.dest hi))
  | raised | advanced | branched | stored | printed | exited => simp

/-- Settles O20, by the forms of the next state: each register write is to the destination. -/
theorem onlyDestinationWritten : Obligations.OnlyDestinationWritten :=
  fun _ _ _ hexec _ hj => (exec_next hexec).reg_eq_of_not_dest hj

theorem NextForm.mem_eq_of_not_stores {i : Instr} {s t : State} (h : NextForm i s t)
    (hns : i.stores = false) : t.mem = s.mem := by
  cases h with
  | stored a n v hs => exact absurd (hs.symm.trans hns) Bool.noConfusion
  | raised | wrote | advanced | branched | linked | drew | printed | exited => simp

/-- Settles O21: only the form of a store changes memory, and only SB, SH and SW take it. -/
theorem memoryChangedOnlyByStores : Obligations.MemoryChangedOnlyByStores := by
  intro i s t hns hexec a
  rw [(exec_next hexec).mem_eq_of_not_stores hns]

/-! ## What a step keeps (R21, R32, R34) -/

/-- Settles O52. -/
theorem x0KeptUnderDiscard : Obligations.X0KeptUnderDiscard := by
  intro s t hx hstep
  obtain ⟨-, ⟨e, -, rfl⟩ | ⟨i, -, hexec⟩⟩ := step_next hstep
  · exact State.raise_reg s e 0
  · exact (exec_next hexec).reg_zero_eq_of_discard hx

theorem NextForm.out_eq_append {i : Instr} {s t : State} (h : NextForm i s t) :
    ∃ events, t.out = s.out ++ events := by
  cases h with
  | raised e => exact ⟨[.diag e], rfl⟩
  | drew rd rs1 imm e => exact ⟨[.diag e], by simp⟩
  | printed bytes => exact ⟨bytes.map .console, rfl⟩
  | exited => exact ⟨s.params.exitBanner.map .console, rfl⟩
  | wrote | advanced | branched | linked | stored => exact ⟨[], by simp⟩

/-- Settles O53. -/
theorem outputOnlyGrows : Obligations.OutputOnlyGrows := by
  intro s t hstep
  obtain ⟨-, ⟨e, -, rfl⟩ | ⟨i, -, hexec⟩⟩ := step_next hstep
  · exact ⟨⟨[.diag e], rfl⟩, rfl⟩
  · exact ⟨(exec_next hexec).out_eq_append, (exec_next hexec).params_eq⟩

/-! ## The end of a run (R31, R204, R253, R254) -/

/-- Every instruction answers a next state, in every state (R256, log entry 8). -/
theorem exec_completes (i : Instr) (s : State) : ∃ t, exec i s = .next t := by
  by_cases hi : ∃ rd rs1 imm, i = .opimmInvalid rd rs1 imm
  · obtain ⟨rd, rs1, imm, rfl⟩ := hi
    cases hp : s.params.opimmInvalid with
    | goOn => exact ⟨_, execOpimmInvalid_goOn hp rd rs1 imm⟩
    | fatal => exact ⟨_, execOpimmInvalid_fatal hp rd rs1 imm⟩
  · obtain ⟨t, ht, -⟩ := BlindToDraws.exec (s := s) (n := 0)
      fun rd rs1 imm h => hi ⟨rd, rs1, imm, h⟩
    exact ⟨t, ht⟩

theorem step_of_running {s : State} (hr : s.status = .running) : ∃ t, step s = .next t := by
  cases hf : fetchDecode s with
  | error e => exact ⟨s.raise e, step_of_fetchDecode_error hr hf⟩
  | ok i =>
    rw [step_of_fetchDecode_ok hr hf]
    exact exec_completes i s

theorem step_of_ended {s : State} (h : s.status ≠ .running) :
    step s = .fault (.runEnded s.status) := by
  unfold step
  split
  · next hr => exact absurd hr h
  · rfl

/-- Settles O14: a running state's step answers a next state, an ended one's the fault. -/
theorem stepStopsWhenEnded : Obligations.StepStopsWhenEnded := by
  intro s f
  constructor
  · intro hfault
    have hended : s.status ≠ .running := fun hr => by
      obtain ⟨t, ht⟩ := step_of_running hr
      cases ht.symm.trans hfault
    rw [step_of_ended hended] at hfault
    exact ⟨hended, (Host.Outcome.fault.inj hfault).symm⟩
  · rintro ⟨hended, rfl⟩
    exact step_of_ended hended

theorem execEcall_of_ten {s : State} (h10 : s.reg 10 = .val 10) (rd rs1 : RegIdx) (f3 : BitVec 3)
    (imm : BitVec 12) :
    execEcall rd rs1 f3 imm s = .next (s.emit s.params.exitBanner).haltSuccess :=
  withReg_of_val _ h10

/-- Settles O45. -/
theorem exitEffect : Obligations.ExitEffect := fun _ rd rs1 f3 imm h10 =>
  ⟨_, execEcall_of_ten h10 rd rs1 f3 imm, fun _ => rfl, fun _ => rfl, rfl, rfl, rfl, rfl, rfl, rfl⟩

/-- Only ECALL with 10 in x10 ends a running run in Exited(0). -/
theorem NextForm.ecall_of_exited {i : Instr} {s t : State} (h : NextForm i s t)
    (hr : s.status = .running) (ht : t.status = .exited) :
    (∃ rd rs1 f3 imm, i = .ecall rd rs1 f3 imm) ∧ s.reg 10 = .val 10 := by
  cases h with
  | exited rd rs1 f3 imm hi h10 => exact ⟨⟨rd, rs1, f3, imm, hi⟩, h10⟩
  | raised e => cases ht
  | wrote | advanced | branched | linked | stored | drew | printed => simp [hr] at ht

/-- A step to Exited(0) is an ECALL with 10 in x10. -/
theorem step_to_exited {s t : State} (h : step s = .next t) (ht : t.status = .exited) :
    s.status = .running ∧ s.reg 10 = .val 10 ∧
      ∃ rd rs1 f3 imm, fetchDecode s = .ok (.ecall rd rs1 f3 imm) := by
  obtain ⟨hr, ⟨e, -, rfl⟩ | ⟨i, hf, hexec⟩⟩ := step_next h
  · cases ht
  · obtain ⟨⟨rd, rs1, f3, imm, rfl⟩, h10⟩ := (exec_next hexec).ecall_of_exited hr ht
    exact ⟨hr, h10, rd, rs1, f3, imm, hf⟩

/-- The first step of a run of k + 1 steps. -/
theorem run_succ_iff {M : Host.Core} {k : Nat} {s t : M.State} :
    M.run (k + 1) s = .next t ↔ ∃ u, M.step s = .next u ∧ M.run k u = .next t := by
  cases hs : M.step s <;> simp [Host.Core.run, hs]

/-- The last step of a run of k + 1 steps. -/
theorem run_succ_last {M : Host.Core} {k : Nat} {s t : M.State} (h : M.run (k + 1) s = .next t) :
    ∃ u, M.run k s = .next u ∧ M.step u = .next t := by
  induction k generalizing s with
  | zero =>
    obtain ⟨u, hu, h⟩ := run_succ_iff.1 h
    cases h
    exact ⟨s, rfl, hu⟩
  | succ k ih =>
    obtain ⟨u, hu, h⟩ := run_succ_iff.1 h
    obtain ⟨v, hv, hlast⟩ := ih h
    exact ⟨v, run_succ_iff.2 ⟨u, hu, hv⟩, hlast⟩

/-- Settles O55: a run with no step is still Running, so there is a last step, and only an ECALL with
10 in x10 steps to Exited(0). -/
theorem runEndsOnlyByExitSyscall : Obligations.RunEndsOnlyByExitSyscall := by
  intro k s t hr hrun ht
  cases k with
  | zero =>
    cases hrun
    cases hr.symm.trans ht
  | succ j =>
    obtain ⟨u, hu, hstep⟩ := run_succ_last hrun
    obtain ⟨hur, h10, rd, rs1, f3, imm, hf⟩ := step_to_exited hstep ht
    exact ⟨j, u, rd, rs1, f3, imm, rfl, hu, hur, hf, h10, hstep⟩

end Sys2Proof.Machine

/-! # Memory (spec/20_memory.md): fetching, a store and the fetch after it, LSGT, and printing a string -/

namespace Sys2Proof.Machine

/-! ## The outcome of a fetch (R42, R44, R47) -/

/-- The alignment check of a fetch lets pc pass (R47). -/
def State.AlignmentPasses (s : State) : Prop :=
  s.params.fetchMisaligned = .permit ∨ s.pc.toNat % 4 = 0

theorem State.alignmentPasses_iff {s : State} :
    s.AlignmentPasses ↔ (s.params.fetchMisaligned = .fault → s.pc.toNat % 4 = 0) := by
  unfold State.AlignmentPasses
  cases s.params.fetchMisaligned <;> simp

/-- The two low bits of an address are zero exactly if it is a multiple of 4. -/
theorem lowTwoBits_eq_zero_iff (a : Word) : a.extractLsb' 0 2 = 0 ↔ a.toNat % 4 = 0 := by
  rw [← BitVec.toNat_inj]
  simp

theorem Memory.load_four_eq_wordAt (s : State) (a : Nat) : s.mem.load a 4 = wordAt s a :=
  Memory.load_four s.mem a

theorem fetch_of_misaligned {s : State} (hfault : s.params.fetchMisaligned = .fault)
    (hpc : s.pc.toNat % 4 ≠ 0) : fetch s = .error (.misalignedFetch s.pc) :=
  if_pos ⟨hfault, mt (lowTwoBits_eq_zero_iff s.pc).1 hpc⟩

theorem fetch_of_alignmentPasses {s : State} (hal : s.AlignmentPasses) :
    fetch s = if s.admits s.pc 4 then .ok (wordAt s s.pc.toNat) else .error (.invalidRead s.pc) := by
  rw [← Memory.load_four_eq_wordAt]
  refine if_neg ?_
  rintro ⟨hfault, hlow⟩
  exact hlow ((lowTwoBits_eq_zero_iff s.pc).2 (State.alignmentPasses_iff.1 hal hfault))

theorem fetch_of_outOfBounds {s : State} (hal : s.AlignmentPasses)
    (hout : s.params.memSize < s.pc.toNat + 4) : fetch s = .error (.invalidRead s.pc) := by
  rw [fetch_of_alignmentPasses hal, State.not_admits_iff.2 hout]
  rfl

theorem fetch_of_inBounds {s : State} (hal : s.AlignmentPasses)
    (hin : s.pc.toNat + 4 ≤ s.params.memSize) : fetch s = .ok (wordAt s s.pc.toNat) := by
  rw [fetch_of_alignmentPasses hal, State.admits_iff.2 hin]
  rfl

theorem step_of_fetch_error {s : State} {e : Err} (hr : s.status = .running)
    (h : fetch s = .error e) : step s = s.raised e :=
  step_of_fetchDecode_error hr (by simp only [fetchDecode, h])

/-- Settles O13. -/
theorem fetchChecksInOrder : Obligations.FetchChecksInOrder := by
  intro s hr
  refine ⟨fun hfault hpc => ?_, fun hal hout => ?_, fetch_of_inBounds⟩
  · rw [step_of_fetch_error hr (fetch_of_misaligned hfault hpc)]
    exact raisesOn_raised s _
  · rw [step_of_fetch_error hr (fetch_of_outOfBounds hal hout)]
    exact raisesOn_raised s _

/-! ## A fetch after a store (R54) -/

/-- A load from where n bytes of v were stored gives those bytes back (R42, R160). -/
theorem Memory.load_store {m : Memory} (hm : m.wf) (a n : Nat) (v : Word) :
    (m.store a n v).load a n = (v.setWidth (8 * n)).setWidth 32 := by
  apply BitVec.eq_of_getLsbD_eq
  intro j hj
  rw [Memory.getLsbD_load _ _ _ _ hj]
  by_cases hjn : j < 8 * n
  · rw [Memory.read_store_inside hm _ _ _ _ (by omega)]
    have hbyte : j % 8 < 8 := Nat.mod_lt _ (by omega)
    simp [hj, hjn, hbyte, Nat.div_add_mod]
  · simp [hjn]

theorem storeOp_of_inBounds {s : State} {rs1 rs2 : RegIdx} {base v : Word} {hi : BitVec 7}
    {lo : BitVec 5} {n : Nat} (hbase : s.reg rs1 = .val base) (hv : s.reg rs2 = .val v)
    (hin : (storeAddress base hi lo).toNat + n ≤ s.params.memSize) :
    storeOp s rs1 rs2 hi lo n =
      .next ({ s with mem := s.mem.store (storeAddress base hi lo).toNat n v } : State).advance := by
  unfold storeOp
  rw [withReg_of_val _ hbase, withReg_of_val _ hv, withStore_of_admits _ (State.admits_iff.2 hin)]

/-- Settles O17: the fetch at the stored address passes both checks and loads the word the store has
written. -/
theorem fetchSeesEarlierStore : Obligations.FetchSeesEarlierStore := by
  intro s t rs1 rs2 hi lo base v hm hbase hv halign hin hexec
  have hstored : exec (.sw rs1 rs2 hi lo) s = _ := storeOp_of_inBounds hbase hv hin
  obtain rfl := Host.Outcome.next.inj (hstored.symm.trans hexec)
  rw [fetch_of_inBounds (.inr halign) hin, ← Memory.load_four_eq_wordAt]
  simp [Memory.load_store hm]

/-! ## LSGT (R116) -/

/-- The condition of LSGT, by LSGT_COMPARE. -/
theorem lsgtHolds_iff {mode : Config.LsgtCompare} {a m : Word} :
    lsgtHolds mode a m = true ↔
      (mode = .signed ∧ m.toInt < a.toInt) ∨ (mode = .unsigned ∧ m.toNat < a.toNat) := by
  cases mode <;> simp [lsgtHolds]

theorem writesOnly_writeReg_advance (s : State) (rd : RegIdx) (v : Word) :
    WritesOnly (.next (s.writeReg rd v).advance) s rd v (s.pc + 4) :=
  ⟨_, rfl, fun j => State.reg_writeReg s rd j v, by simp, by simp, by simp [SameRun]⟩

theorem movesOnly_advance (s : State) : MovesOnly (.next s.advance) s (s.pc + 4) :=
  ⟨_, rfl, fun _ => rfl, fun _ => rfl, rfl, rfl, rfl, rfl, rfl⟩

/-- An instruction whose meaning reads x[rs1], then x[rs2] and goes on as f: what holds whenever it
answers as f does of the two values is a postcondition (R22). -/
theorem readsTwo_of_withReg {i : Instr} {s : State} {rs1 rs2 : RegIdx} {f : Word → Word → Result}
    {post : Word → Word → Prop}
    (hexec : exec i s = withReg s rs1 fun a => withReg s rs2 (f a))
    (hpost : ∀ a b, exec i s = f a b → post a b) : ReadsTwo i s rs1 rs2 post := by
  refine ⟨fun a b ha hb => hpost a b ?_, fun hunset => ?_⟩
  · rw [hexec, withReg_of_val _ ha, withReg_of_val _ hb]
  · rw [hexec]
    cases ha : s.reg rs1 with
    | unset => exact ⟨rs1, .inl rfl, ha, raisesOn_withReg _ ha⟩
    | val a =>
      have hb : s.reg rs2 = .unset := hunset.resolve_left (by simp [ha])
      rw [withReg_of_val _ ha]
      exact ⟨rs2, .inr rfl, hb, raisesOn_withReg _ hb⟩

theorem decode_lsgt (strict : Bool) (rd rs1 rs2 : RegIdx) (f3 : BitVec 3) (f7 : BitVec 7) :
    decode strict (packR f7 rs2 rs1 f3 rd 0x2A) = .ok (.lsgt rd rs1 rs2 f3 f7) := by
  simp [decode]

/-- Settles O30: the bounds check of the load, then LSGT's condition, choose among the raise, the
write and the plain advance. -/
theorem lsgtResult : Obligations.LsgtResult := by
  intro strict s rd rs1 rs2 f3 f7
  refine ⟨decode_lsgt strict rd rs1 rs2 f3 f7, readsTwo_of_withReg rfl fun a addr hexec => ?_⟩
  rw [hexec]
  refine ⟨fun hin => ?_, fun hout => ?_⟩
  · rw [withLoad_of_admits _ (State.admits_iff.2 hin), Memory.load_four_eq_wordAt]
    refine ⟨fun hgreater => ?_, fun hnot => ?_⟩
    · rw [if_pos (lsgtHolds_iff.2 hgreater)]
      exact writesOnly_writeReg_advance s rd _
    · rw [if_neg (mt lsgtHolds_iff.1 hnot)]
      exact movesOnly_advance s
  · rw [withLoad_of_not _ (State.not_admits_iff.2 hout)]
    exact raisesOn_raised s _

/-! ## Syscall 4 (R203) -/

section
variable (m : Memory) (fuel i : Nat)

theorem stringAt_succ_of_zero (h : m.read i = 0) : stringAt m (fuel + 1) i = [] := if_pos h

theorem stringAt_succ_of_ne_zero (h : m.read i ≠ 0) :
    stringAt m (fuel + 1) i = m.read i :: stringAt m fuel (i + 1) := if_neg h

end

/-- n bytes from i up are a string: none of them is zero, and what ends it is the bound on their
number or a zero byte (R203). -/
structure IsString (m : Memory) (bound i n : Nat) : Prop where
  ne_zero : ∀ k < n, m.read (i + k) ≠ 0
  le_bound : n ≤ bound
  ended : n = bound ∨ m.read (i + n) = 0

theorem IsString.cons {m : Memory} {bound i n : Nat} (h : IsString m bound (i + 1) n)
    (hi : m.read i ≠ 0) : IsString m (bound + 1) i (n + 1) where
  ne_zero
    | 0, _ => hi
    | k + 1, hk => by
      rw [Nat.add_comm k, ← Nat.add_assoc]
      exact h.ne_zero k (by omega)
  le_bound := Nat.succ_le_succ h.le_bound
  ended := by
    rw [Nat.add_comm n, ← Nat.add_assoc, Nat.add_comm 1 n]
    exact h.ended.imp_left (congrArg _)

/-- `stringAt` gives the bytes of the string at i. -/
theorem exists_stringAt_eq (m : Memory) (fuel i : Nat) :
    ∃ n, IsString m fuel i n ∧ stringAt m fuel i = (List.range n).map fun k => m.read (i + k) := by
  induction fuel generalizing i with
  | zero => exact ⟨0, ⟨nofun, Nat.le_refl 0, .inl rfl⟩, rfl⟩
  | succ fuel ih =>
    by_cases hi : m.read i = 0
    · exact ⟨0, ⟨nofun, Nat.zero_le _, .inr hi⟩, stringAt_succ_of_zero m fuel i hi⟩
    · obtain ⟨n, hn, hbytes⟩ := ih (i + 1)
      refine ⟨n + 1, hn.cons hi, ?_⟩
      rw [stringAt_succ_of_ne_zero m fuel i hi, hbytes, List.range_succ_eq_map]
      simp [Nat.add_comm, Nat.add_left_comm]

theorem execEcall_of_four {s : State} {a : Word} (h10 : s.reg 10 = .val 4) (h11 : s.reg 11 = .val a)
    (rd rs1 : RegIdx) (f3 : BitVec 3) (imm : BitVec 12) :
    execEcall rd rs1 f3 imm s =
      .next (s.emit (stringAt s.mem (s.params.memSize - a.toNat) a.toNat)).advance :=
  (withReg_of_val _ h10).trans (withReg_of_val _ h11)

theorem printsOnly_emit_advance (s : State) (bytes : List Byte) :
    PrintsOnly (.next (s.emit bytes).advance) s bytes :=
  ⟨_, rfl, fun _ => rfl, fun _ => rfl, rfl, rfl, rfl, rfl, rfl⟩

/-- Settles O44: the string is bounded by the number of bytes from its address to the end of memory,
which is 0 when the address is not below N. -/
theorem printStringEffect : Obligations.PrintStringEffect := by
  intro s rd rs1 f3 imm a h10 h11
  obtain ⟨n, hn, hbytes⟩ := exists_stringAt_eq s.mem (s.params.memSize - a.toNat) a.toNat
  have hexec : exec (.ecall rd rs1 f3 imm) s = _ := execEcall_of_four h10 h11 rd rs1 f3 imm
  rw [hbytes] at hexec
  refine ⟨n, hexec ▸ printsOnly_emit_advance s _, hn.ne_zero, ?_, hn.ended.imp_left fun h => ?_⟩
  · have := hn.le_bound
    omega
  · omega

/-! ## A step at decodable bytes (R253) -/

/-- A decoder's answer is a rejection or a well-formed instruction. -/
def AcceptsWellFormed (strict : Bool) (r : Except Reject Instr) : Prop :=
  ∀ i, r = .ok i → i.wellFormed strict = true

namespace AcceptsWellFormed

variable {strict : Bool} {w : Word}

theorem ok {i : Instr} (h : i.wellFormed strict = true) : AcceptsWellFormed strict (.ok i) :=
  fun _ hi => Except.ok.inj hi ▸ h

theorem error {e : Reject} : AcceptsWellFormed strict (.error e) := nofun

theorem ite_of {c : Prop} [Decidable c] {r₁ r₂ : Except Reject Instr}
    (h₁ : c → AcceptsWellFormed strict r₁) (h₂ : ¬ c → AcceptsWellFormed strict r₂) :
    AcceptsWellFormed strict (if c then r₁ else r₂) := by
  split
  · next hc => exact h₁ hc
  · next hc => exact h₂ hc

theorem ite {c : Prop} [Decidable c] {r₁ r₂ : Except Reject Instr}
    (h₁ : AcceptsWellFormed strict r₁) (h₂ : AcceptsWellFormed strict r₂) :
    AcceptsWellFormed strict (if c then r₁ else r₂) :=
  ite_of (fun _ => h₁) fun _ => h₂

/-- Opcode 0x33, one line per funct3: of the terms it gives only SLT's and AND's can be ill-formed, and
under STRICT_FUNCT7 the decoder rejects their words whose funct7 is not 0 (R78). -/
theorem decodeOp : AcceptsWellFormed strict (decodeOp strict w) := by
  have funct7_unexamined (i : Instr) (hi : i.wellFormed strict = (!strict || funct7Of w == 0x00#7)) :
      AcceptsWellFormed strict
        (if funct7Of w ≠ 0x00#7 ∧ strict = true then .error (.invalidInstruction w) else .ok i) := by
    refine ite_of (fun _ => error) fun h => ok ?_
    rw [hi]
    cases strict with
    | false => rfl
    | true => simpa using h
  exact ite (ite (ok rfl) (ite (ok rfl) (ite (ok rfl) error)))
    (ite (ite (ok rfl) (ite (ok rfl) error))
    (ite (funct7_unexamined _ rfl)
    (ite (ite (ok rfl) (ite (ok rfl) error))
    (ite (ite (ok rfl) (ite (ok rfl) error))
    (ite (ite (ok rfl) (ite (ok rfl) error))
    (ite (funct7_unexamined _ rfl) error))))))

/-- Opcode 0x13: a right shift is SRLI only when its upper bits are not SRAI's (R135). -/
theorem decodeOpImm : AcceptsWellFormed strict (decodeOpImm w) := by
  have shiftRight : AcceptsWellFormed strict
      (if funct7Of w = 0x20#7 then .ok (.srai (rdOf w) (rs1Of w) (rs2Of w))
        else .ok (.srli (rdOf w) (rs1Of w) (rs2Of w) (funct7Of w))) :=
    ite_of (fun _ => ok rfl) fun h => ok (bne_iff_ne.2 h)
  exact ite (ok rfl) (ite (ok rfl) (ite (ok rfl) (ite (ok rfl) (ite (ok rfl)
    (ite shiftRight (ite (ok rfl) (ok rfl)))))))

theorem decodeLoad : AcceptsWellFormed strict (decodeLoad w) :=
  ite (ok rfl) (ite (ok rfl) (ite (ok rfl) error))

theorem decodeStore : AcceptsWellFormed strict (decodeStore w) :=
  ite (ok rfl) (ite (ok rfl) (ite (ok rfl) error))

theorem decodeBranch : AcceptsWellFormed strict (decodeBranch w) :=
  ite (ok rfl) (ite (ok rfl) error)

/-- The decoder accepts well-formed instructions only (R78, R135). -/
theorem decode : AcceptsWellFormed strict (decode strict w) :=
  ite decodeOp (ite (ok rfl) (ite decodeOpImm (ite decodeLoad (ite decodeStore (ite decodeBranch
    (ite (ok rfl) (ite (ok rfl) (ite (ok rfl) (ite (ok rfl) (ite (ok rfl) error))))))))))

end AcceptsWellFormed

theorem decodeBytes_four_ok {strict : Bool} {b0 b1 b2 b3 : Byte} {i : Instr} {rest : List Byte}
    (h : decodeBytes strict [b0, b1, b2, b3] = .ok (i, rest)) :
    decode strict (wordOfBytes b0 b1 b2 b3) = .ok i ∧ rest = [] := by
  cases hd : decode strict (wordOfBytes b0 b1 b2 b3) with
  | error r => simp [decodeBytes, hd] at h
  | ok j =>
    obtain ⟨rfl, rfl⟩ : j = i ∧ [] = rest := by simpa [decodeBytes, hd] using h
    exact ⟨rfl, rfl⟩

theorem fetchDecode_of_fetch_ok {s : State} {w : Word} {i : Instr} (hf : fetch s = .ok w)
    (hd : decode s.params.strictFunct7 w = .ok i) : fetchDecode s = .ok i := by
  simp only [fetchDecode, hf, hd]

/-- Settles O12: the four bytes at pc make the word that is fetched there, and the decoder accepts
well-formed instructions only. -/
theorem stepRunsDecodedBytes : Obligations.StepRunsDecodedBytes := by
  intro s i rest hr hal hin hbytes
  obtain ⟨hdecode, hrest⟩ := decodeBytes_four_ok hbytes
  have hfetch := fetch_of_inBounds (State.alignmentPasses_iff.2 hal) hin
  exact ⟨AcceptsWellFormed.decode i hdecode, hrest,
    step_of_fetchDecode_ok hr (fetchDecode_of_fetch_ok hfetch hdecode)⟩

end Sys2Proof.Machine

/-! # Encoding (spec/30_encoding.md): decoding and encoding, the opcode table, rejected words, the
immediates, and the results of SLT, AND, the immediate shifts and JAL -/

namespace Sys2Proof.Machine

/-! ## The fields of a word (R62 to R68, R88) -/

section
variable (w : Word)

theorem packR_fields :
    packR (funct7Of w) (rs2Of w) (rs1Of w) (funct3Of w) (rdOf w) (opcodeOf w) = w := by
  simp only [packR, funct7Of, rs2Of, rs1Of, funct3Of, rdOf, opcodeOf,
    BitVec.extractLsb'_append_extractLsb'_eq_extractLsb', BitVec.extractLsb'_eq_self]

theorem packI_fields : packI (immIOf w) (rs1Of w) (funct3Of w) (rdOf w) (opcodeOf w) = w := by
  simp only [packI, immIOf, rs1Of, funct3Of, rdOf, opcodeOf,
    BitVec.extractLsb'_append_extractLsb'_eq_extractLsb', BitVec.extractLsb'_eq_self]

theorem packU_fields : packU (immUOf w) (rdOf w) (opcodeOf w) = w := by
  simp only [packU, immUOf, rdOf, opcodeOf,
    BitVec.extractLsb'_append_extractLsb'_eq_extractLsb', BitVec.extractLsb'_eq_self]

end

/-- Settles O3: adjacent pieces of a word append to one piece, and as numbers the fields are
quotients and remainders of the word by powers of two. -/
theorem repackedFieldsGiveWord : Obligations.RepackedFieldsGiveWord := by
  intro w
  refine ⟨packR_fields w, packI_fields w, packU_fields w, ?_⟩
  simp only [opcodeOf, rdOf, funct3Of, rs1Of, rs2Of, funct7Of, immIOf, immUOf,
    BitVec.extractLsb'_toNat, Nat.shiftRight_eq_div_pow]
  have := w.isLt
  omega

/-- The eighth value of funct3. -/
theorem funct3_eq_seven {f3 : BitVec 3} (h0 : f3 ≠ 0x0#3) (h1 : f3 ≠ 0x1#3) (h2 : f3 ≠ 0x2#3)
    (h3 : f3 ≠ 0x3#3) (h4 : f3 ≠ 0x4#3) (h5 : f3 ≠ 0x5#3) (h6 : f3 ≠ 0x6#3) : f3 = 0x7#3 := by
  bv_omega

/-! ## Decoding and encoding (R69, R78 to R83, R88) -/

/-- Settles O1, by the decoder of the instruction's opcode: the fields it reads are those packed. -/
theorem decodeOfEncode : Obligations.DecodeOfEncode := by
  intro strict i hwf
  cases i with
  | add | sub | sll | xor | srl | sra | or | mul | mulh | div | rem =>
    simp [encode, decode, decodeOp]
  | slt | and =>
    simpa [encode, decode, decodeOp, Instr.wellFormed, or_iff_not_imp_right] using hwf
  | addi | slli | slti | opimmInvalid | xori | srai | ori | andi =>
    simp [encode, decode, decodeOpImm]
  | srli => simpa [encode, decode, decodeOpImm, Instr.wellFormed] using hwf
  | lb | lh | lw => simp [encode, decode, decodeLoad]
  | sb | sh | sw => simp [encode, decode, decodeStore]
  | beq | bne => simp [encode, decode, decodeBranch]
  | lsgt | jal | jalrUnhandled | lui | auipcUnhandled | ecall => simp [encode, decode]

/-- A decoder's answer is a rejection or an instruction whose word is w. -/
def EncodesBackTo (w : Word) (r : Except Reject Instr) : Prop :=
  ∀ i, r = .ok i → encode i = w

namespace EncodesBackTo

variable {strict : Bool} {w : Word} {i : Instr} {o f7 : BitVec 7} {f3 : BitVec 3}

theorem error {e : Reject} : EncodesBackTo w (.error e) := nofun

theorem ok (hi : encode i = w) : EncodesBackTo w (.ok i) :=
  fun _ h => Except.ok.inj h ▸ hi

/-- The opcode, funct3 and funct7 were examined, and the instruction keeps the other fields. -/
theorem okR (ho : opcodeOf w = o) (h3 : funct3Of w = f3) (h7 : funct7Of w = f7)
    (hi : encode i = packR f7 (rs2Of w) (rs1Of w) f3 (rdOf w) o) : EncodesBackTo w (.ok i) :=
  ok (by rw [hi, ← ho, ← h3, ← h7, packR_fields])

/-- The opcode and funct3 were examined, and the instruction keeps the other fields. -/
theorem okI (ho : opcodeOf w = o) (h3 : funct3Of w = f3)
    (hi : encode i = packI (immIOf w) (rs1Of w) f3 (rdOf w) o) : EncodesBackTo w (.ok i) :=
  ok (by rw [hi, ← ho, ← h3, packI_fields])

/-- The opcode was examined, and the instruction keeps the other fields. -/
theorem okU (ho : opcodeOf w = o) (hi : encode i = packU (immUOf w) (rdOf w) o) :
    EncodesBackTo w (.ok i) :=
  ok (by rw [hi, ← ho, packU_fields])

/-- Opcode 0x33, by funct3 and then funct7 (R78). -/
theorem decodeOp (ho : opcodeOf w = 0x33#7) : EncodesBackTo w (decodeOp strict w) :=
  iteInduction
    (fun h3 => iteInduction (okR ho h3 · rfl) fun _ => iteInduction (okR ho h3 · rfl) fun _ =>
      iteInduction (okR ho h3 · rfl) fun _ => error) fun _ => iteInduction
    (fun h3 => iteInduction (okR ho h3 · rfl) fun _ => iteInduction (okR ho h3 · rfl) fun _ =>
      error) fun _ => iteInduction
    (fun h3 => iteInduction (fun _ => error) fun _ => okR ho h3 rfl rfl) fun _ => iteInduction
    (fun h3 => iteInduction (okR ho h3 · rfl) fun _ => iteInduction (okR ho h3 · rfl) fun _ =>
      error) fun _ => iteInduction
    (fun h3 => iteInduction (okR ho h3 · rfl) fun _ => iteInduction (okR ho h3 · rfl) fun _ =>
      error) fun _ => iteInduction
    (fun h3 => iteInduction (okR ho h3 · rfl) fun _ => iteInduction (okR ho h3 · rfl) fun _ =>
      error) fun _ => iteInduction
    (fun h3 => iteInduction (fun _ => error) fun _ => okR ho h3 rfl rfl) fun _ => error

/-- Opcode 0x13, by funct3; the right shifts by funct7 too (R80, R135). -/
theorem decodeOpImm (ho : opcodeOf w = 0x13#7) : EncodesBackTo w (decodeOpImm w) :=
  iteInduction (okI ho · rfl) fun h0 =>
  iteInduction (okR ho · rfl rfl) fun h1 =>
  iteInduction (okI ho · rfl) fun h2 =>
  iteInduction (okI ho · rfl) fun h3 =>
  iteInduction (okI ho · rfl) fun h4 =>
  iteInduction (fun h => iteInduction (okR ho h · rfl) fun _ => okR ho h rfl rfl) fun h5 =>
  iteInduction (okI ho · rfl) fun h6 =>
  okI ho (funct3_eq_seven h0 h1 h2 h3 h4 h5 h6) rfl

theorem decodeLoad (ho : opcodeOf w = 0x03#7) : EncodesBackTo w (decodeLoad w) :=
  iteInduction (okI ho · rfl) fun _ => iteInduction (okI ho · rfl) fun _ =>
    iteInduction (okI ho · rfl) fun _ => error

theorem decodeStore (ho : opcodeOf w = 0x23#7) : EncodesBackTo w (decodeStore w) :=
  iteInduction (okR ho · rfl rfl) fun _ => iteInduction (okR ho · rfl rfl) fun _ =>
    iteInduction (okR ho · rfl rfl) fun _ => error

theorem decodeBranch (ho : opcodeOf w = 0x63#7) : EncodesBackTo w (decodeBranch w) :=
  iteInduction (okR ho · rfl rfl) fun _ => iteInduction (okR ho · rfl rfl) fun _ => error

/-- Every word, by its opcode (R69). -/
theorem decode : EncodesBackTo w (decode strict w) :=
  iteInduction decodeOp fun _ =>
  iteInduction (okR · rfl rfl rfl) fun _ =>
  iteInduction decodeOpImm fun _ =>
  iteInduction decodeLoad fun _ =>
  iteInduction decodeStore fun _ =>
  iteInduction decodeBranch fun _ =>
  iteInduction (okU · rfl) fun _ =>
  iteInduction (okI · rfl rfl) fun _ =>
  iteInduction (okU · rfl) fun _ =>
  iteInduction (okU · rfl) fun _ =>
  iteInduction (okI · rfl rfl) fun _ => error

end EncodesBackTo

/-- Settles O2: on each branch of the decoder the examined fields are those the instruction's word
gets, and the instruction keeps the others. -/
theorem encodeOfDecode : Obligations.EncodeOfDecode := fun _ _ i hi =>
  ⟨EncodesBackTo.decode i hi, AcceptsWellFormed.decode i hi⟩

/-! ## Rejected words (R70, R78, R115) -/

/-- A decoder rejects w, if at all, as an invalid instruction. -/
def RejectsAsInvalid (w : Word) (r : Except Reject Instr) : Prop :=
  ∀ e, r = .error e → e = .invalidInstruction w

namespace RejectsAsInvalid

variable {w : Word} {strict : Bool}

theorem ok {i : Instr} : RejectsAsInvalid w (.ok i) := nofun

theorem error : RejectsAsInvalid w (.error (.invalidInstruction w)) :=
  fun _ h => (Except.error.inj h).symm

theorem ite {c : Prop} [Decidable c] {r₁ r₂ : Except Reject Instr} (h₁ : RejectsAsInvalid w r₁)
    (h₂ : RejectsAsInvalid w r₂) : RejectsAsInvalid w (if c then r₁ else r₂) :=
  iteInduction (fun _ => h₁) fun _ => h₂

theorem decodeOp : RejectsAsInvalid w (decodeOp strict w) :=
  ite (ite ok (ite ok (ite ok error))) (ite (ite ok (ite ok error)) (ite (ite error ok)
    (ite (ite ok (ite ok error)) (ite (ite ok (ite ok error)) (ite (ite ok (ite ok error))
    (ite (ite error ok) error))))))

theorem decodeOpImm : RejectsAsInvalid w (decodeOpImm w) :=
  ite ok (ite ok (ite ok (ite ok (ite ok (ite (ite ok ok) (ite ok ok))))))

theorem decodeLoad : RejectsAsInvalid w (decodeLoad w) := ite ok (ite ok (ite ok error))

theorem decodeStore : RejectsAsInvalid w (decodeStore w) := ite ok (ite ok (ite ok error))

theorem decodeBranch : RejectsAsInvalid w (decodeBranch w) := ite ok (ite ok error)

/-- Only the last branch of the decoder rejects an opcode, and no recognised opcode gets there. -/
theorem decode (hmem : opcodeOf w ∈ recognisedOpcodes) : RejectsAsInvalid w (decode strict w) :=
  iteInduction (fun _ => decodeOp) fun _ =>
  iteInduction (fun _ => ok) fun _ =>
  iteInduction (fun _ => decodeOpImm) fun _ =>
  iteInduction (fun _ => decodeLoad) fun _ =>
  iteInduction (fun _ => decodeStore) fun _ =>
  iteInduction (fun _ => decodeBranch) fun _ =>
  iteInduction (fun _ => ok) fun _ =>
  iteInduction (fun _ => ok) fun _ =>
  iteInduction (fun _ => ok) fun _ =>
  iteInduction (fun _ => ok) fun _ =>
  iteInduction (fun _ => ok) fun _ => absurd hmem (by simp [recognisedOpcodes, *])

end RejectsAsInvalid

section
variable {strict : Bool} {s : State} {w : Word}

theorem decode_eq_unknownOpcode_iff :
    decode strict w = .error (.unknownOpcode w) ↔ opcodeOf w ∉ recognisedOpcodes := by
  constructor
  · intro h hmem
    cases RejectsAsInvalid.decode hmem _ h
  · intro h
    simp_all [recognisedOpcodes, decode]

/-- The word of a well-formed instruction has selectors that R78 maps. -/
theorem not_unmappedOp_encode {i : Instr} (hwf : i.wellFormed strict = true) :
    ¬ unmappedOp strict (encode i) := by
  rintro ⟨hopcode, hpair, hany⟩
  cases i with
  | add | sub | sll | xor | srl | sra | or | mul | mulh | div | rem => simp [encode] at hpair
  | slt | and =>
    exact hany ⟨by simp [encode], by simpa [encode, Instr.wellFormed] using hwf⟩
  | lsgt | addi | slli | slti | opimmInvalid | xori | srli | srai | ori | andi | lb | lh | lw | sb
  | sh | sw | beq | bne | jal | jalrUnhandled | lui | auipcUnhandled | ecall =>
    simp [encode] at hopcode

theorem decode_of_unmappedOp (h : unmappedOp strict w) :
    decode strict w = .error (.invalidInstruction w) := by
  cases hd : decode strict w with
  | ok i =>
    obtain ⟨rfl, hwf⟩ := encodeOfDecode strict w i hd
    exact absurd h (not_unmappedOp_encode hwf)
  | error e =>
    have hmem : opcodeOf w ∈ recognisedOpcodes := h.1 ▸ List.mem_cons_self
    rw [RejectsAsInvalid.decode hmem e hd]

/-- A step that fetches a rejected word raises the error of the rejection. -/
theorem raisesOn_step_of_rejected {r : Reject} (hr : s.status = .running) (hf : fetch s = .ok w)
    (hd : decode s.params.strictFunct7 w = .error r) : RaisesOn (step s) s (rejectErr r) := by
  have hfd : fetchDecode s = .error (rejectErr r) := by simp only [fetchDecode, hf, hd]
  rw [step_of_fetchDecode_error hr hfd]
  exact raisesOn_raised s _

end

/-- Settles O4. -/
theorem unrecognisedOpcodeFails : Obligations.UnrecognisedOpcodeFails :=
  ⟨fun _ _ => decode_eq_unknownOpcode_iff, fun _ _ hr hf hw =>
    raisesOn_step_of_rejected hr hf (decode_eq_unknownOpcode_iff.2 hw)⟩

/-- Settles O7: an accepted word would be the word of a well-formed instruction, whose selectors are
mapped. -/
theorem unmappedOpSelectorsFail : Obligations.UnmappedOpSelectorsFail :=
  fun _ _ hr hf hw => raisesOn_step_of_rejected hr hf (decode_of_unmappedOp hw)

/-! ## The opcode table (R69, R78 to R83) -/

/-- A word under a mask, field by field. -/
theorem and_eq_iff_fields {w mask value : Word} :
    w &&& mask = value ↔ funct7Of w &&& mask.extractLsb' 25 7 = value.extractLsb' 25 7 ∧
      rs2Of w &&& mask.extractLsb' 20 5 = value.extractLsb' 20 5 ∧
      rs1Of w &&& mask.extractLsb' 15 5 = value.extractLsb' 15 5 ∧
      funct3Of w &&& mask.extractLsb' 12 3 = value.extractLsb' 12 3 ∧
      rdOf w &&& mask.extractLsb' 7 5 = value.extractLsb' 7 5 ∧
      opcodeOf w &&& mask.extractLsb' 0 7 = value.extractLsb' 0 7 := by
  simp only [funct7Of, rs2Of, rs1Of, funct3Of, rdOf, opcodeOf, ← BitVec.extractLsb'_and]
  constructor
  · rintro rfl
    simp only [and_self]
  · rintro ⟨h7, hrs2, hrs1, h3, hrd, ho⟩
    rw [← packR_fields (w &&& mask), ← packR_fields value]
    simp only [funct7Of, rs2Of, rs1Of, funct3Of, rdOf, opcodeOf, h7, hrs2, hrs1, h3, hrd, ho]

@[simp] theorem and_seven_ones (x : BitVec 7) : x &&& 0x7F#7 = x := BitVec.and_allOnes

@[simp] theorem and_three_ones (x : BitVec 3) : x &&& 0x7#3 = x := BitVec.and_allOnes

/-- The mnemonic of the first of some rows of the table that a word matches. -/
def firstRow (rows : List (String × Word × Word)) (w : Word) : Option String :=
  (rows.find? fun r => w &&& r.2.1 == r.2.2).map (·.1)

@[simp] theorem firstRow_nil (w : Word) : firstRow [] w = none := rfl

@[simp] theorem firstRow_cons (name : String) (mask value : Word)
    (rows : List (String × Word × Word)) (w : Word) :
    firstRow ((name, mask, value) :: rows) w =
      if w &&& mask = value then some name else firstRow rows w := by
  split <;> simp [firstRow, *]

/-- Every row examines the whole opcode, so only the rows of the word's opcode count. -/
theorem rowOf_eq_firstRow_filter (w : Word) :
    rowOf w = firstRow (opcodeRows.filter fun r => r.2.2.extractLsb' 0 7 == opcodeOf w) w := by
  have hmask : ∀ r ∈ opcodeRows, r.2.1.extractLsb' 0 7 = BitVec.allOnes 7 := by decide
  have hopcode : ∀ r ∈ opcodeRows, w &&& r.2.1 = r.2.2 → r.2.2.extractLsb' 0 7 = opcodeOf w := by
    intro r hr h
    rw [← h, BitVec.extractLsb'_and, hmask r hr, BitVec.and_allOnes, opcodeOf]
  rw [rowOf, firstRow, List.find?_filter]
  congr 1
  refine List.find?_congr fun r hr => Bool.eq_iff_iff.2 ?_
  simp only [beq_iff_eq, decide_eq_true_eq]
  exact (and_iff_right_of_imp (hopcode r hr)).symm

/-- The mnemonic of a decoder's answer. -/
def answeredMnemonic : Except Reject Instr → Option String
  | .ok i => some (mnemonicOf i)
  | .error _ => none

@[simp] theorem answeredMnemonic_ok (i : Instr) :
    answeredMnemonic (.ok i) = some (mnemonicOf i) := rfl

@[simp] theorem answeredMnemonic_error (e : Reject) : answeredMnemonic (.error e) = none := rfl

/-- A decoder's answer is the row of the table that w matches, or a rejection if there is none. -/
def ReadsRowOf (w : Word) (r : Except Reject Instr) : Prop := rowOf w = answeredMnemonic r

namespace ReadsRowOf

variable {w : Word}

theorem error_of_unrecognised {e : Reject} (h : opcodeOf w ∉ recognisedOpcodes) :
    ReadsRowOf w (.error e) := by
  have htable : ∀ r ∈ opcodeRows, r.2.2.extractLsb' 0 7 ∈ recognisedOpcodes := by decide
  rw [ReadsRowOf, rowOf_eq_firstRow_filter, List.filter_eq_nil_iff.2, firstRow_nil,
    answeredMnemonic_error]
  intro r hr hopcode
  exact h (beq_iff_eq.1 hopcode ▸ htable r hr)

/-- Opcode 0x13: its rows as conditions on funct3 and funct7, then the branches of its decoder. -/
theorem decodeOpImm (ho : opcodeOf w = 0x13#7) : ReadsRowOf w (decodeOpImm w) := by
  have hrows := rowOf_eq_firstRow_filter w
  simp [ho, opcodeRows, and_eq_iff_fields] at hrows
  simp only [ReadsRowOf, Sys2Proof.decodeOpImm]
  split_ifs with h0 h1 h2 h3 h4 h5 _ h6 <;> simp [*, mnemonicOf]
  exact funct3_eq_seven h0 h1 h2 h3 h4 h5 h6

/-- Every word, by its opcode (R69): the opcodes with several rows as 0x13, then those with one. -/
theorem decode : ReadsRowOf w (decode false w) := by
  refine iteInduction (fun ho => ?op) fun _ => iteInduction (fun ho => ?lsgt) fun _ =>
    iteInduction decodeOpImm fun _ => iteInduction (fun ho => ?load) fun _ =>
    iteInduction (fun ho => ?store) fun _ => iteInduction (fun ho => ?branch) fun _ =>
    iteInduction (fun ho => ?jal) fun _ => iteInduction (fun ho => ?jalrUnhandled) fun _ =>
    iteInduction (fun ho => ?lui) fun _ => iteInduction (fun ho => ?auipcUnhandled) fun _ =>
    iteInduction (fun ho => ?ecall) fun _ =>
    error_of_unrecognised (by simp [recognisedOpcodes, *])
  case op | load | store | branch =>
    have hrows := rowOf_eq_firstRow_filter w
    simp [ho, opcodeRows, and_eq_iff_fields] at hrows
    simp only [ReadsRowOf, decodeOp, decodeLoad, decodeStore, decodeBranch, Bool.false_eq_true,
      and_false, if_false]
    split_ifs <;> simp [*, mnemonicOf]
  case lsgt | jal | jalrUnhandled | lui | auipcUnhandled | ecall =>
    simp [ReadsRowOf, rowOf_eq_firstRow_filter, ho, opcodeRows, and_eq_iff_fields, mnemonicOf]

end ReadsRowOf

/-- Settles O5. -/
theorem decoderFollowsOpcodeTable : Obligations.DecoderFollowsOpcodeTable :=
  fun _ => ReadsRowOf.decode

/-- Settles O8. -/
theorem sampleWordsDecode : Obligations.SampleWordsDecode := by
  unfold Obligations.SampleWordsDecode
  decide

/-! ## Immediates (R71, R73 to R75) -/

theorem toInt_signExtend {n : Nat} (hn : n ≤ 32) (field : BitVec n) :
    (signExtend field).toInt = field.toInt :=
  BitVec.toInt_signExtend_of_le hn

theorem toInt_signExtend_twelve_range (field : BitVec 12) :
    -2048 ≤ (signExtend field).toInt ∧ (signExtend field).toInt ≤ 2047 := by
  rw [toInt_signExtend (by decide)]
  exact ⟨BitVec.le_toInt field, Int.le_of_lt_add_one BitVec.toInt_lt⟩

/-- A piece of a piece is a piece. -/
theorem extractLsb'_extractLsb' {n a b c d : Nat} (x : BitVec n) (h : c + d ≤ b) :
    (x.extractLsb' a b).extractLsb' c d = x.extractLsb' (a + c) d := by
  apply BitVec.eq_of_getLsbD_eq
  intro j hj
  have hjb : c + j < b := by omega
  simp [hj, hjb, Nat.add_assoc]

theorem toInt_append_of_ne_zero {n m : Nat} (hn : n ≠ 0) (x : BitVec n) (y : BitVec m) :
    (x ++ y).toInt = 2 ^ m * x.toInt + y.toNat := by
  rw [BitVec.toInt_append, if_neg (by simpa using hn)]

/-- The upper n bits, read signed, are the signed quotient by the weight of the lowest of them,
rounded down. -/
theorem toInt_extractLsb'_top {n k : Nat} (hn : n ≠ 0) (x : BitVec (n + k)) :
    (x.extractLsb' k n).toInt = x.toInt.fdiv (2 ^ k) := by
  have hsplit : x.extractLsb' k n ++ x.extractLsb' 0 k = x := by
    rw [BitVec.extractLsb'_append_extractLsb'_eq_extractLsb' (Nat.zero_add k).symm,
      BitVec.extractLsb'_eq_self]
  have hlow : ((x.extractLsb' 0 k).toNat : Int) < 2 ^ k := by
    exact_mod_cast (x.extractLsb' 0 k).isLt
  have hvalue : x.toInt = (x.extractLsb' 0 k).toNat + 2 ^ k * (x.extractLsb' k n).toInt := by
    conv_lhs => rw [← hsplit, toInt_append_of_ne_zero hn, Int.add_comm]
  rw [hvalue, Int.fdiv_eq_ediv_of_nonneg _ (by positivity),
    Int.add_mul_ediv_left _ _ (by positivity), Int.ediv_eq_zero_of_lt (by positivity) hlow,
    Int.zero_add]

theorem toInt_eq_neg_toNat_of_one_bit (x : BitVec 1) : x.toInt = -x.toNat := by
  have := x.isLt
  rw [BitVec.toInt_eq_toNat_cond]
  split <;> omega

section
variable (w : Word)

theorem toInt_immI_immIOf : (immI (immIOf w)).toInt = w.toInt.fdiv (2 ^ 20) := by
  rw [immI, toInt_signExtend (by decide), immIOf, toInt_extractLsb'_top (by decide)]

theorem toInt_storeOffset :
    (storeOffset (funct7Of w) (rdOf w)).toInt = w.toInt.fdiv (2 ^ 25) * 32 + (rdOf w).toNat := by
  rw [storeOffset, toInt_signExtend (by decide), toInt_append_of_ne_zero (by decide), funct7Of,
    toInt_extractLsb'_top (by decide), Int.mul_comm]
  rfl

/-- The branch offset, in the bits of the word itself (R74). -/
theorem branchOffset_eq_wordBits :
    branchOffset (funct7Of w) (rdOf w) = (w.extractLsb' 31 1 ++ w.extractLsb' 7 1 ++
      w.extractLsb' 25 6 ++ w.extractLsb' 8 4 ++ 0#1).signExtend 32 := by
  simp [branchOffset, signExtend, funct7Of, rdOf, extractLsb'_extractLsb']

/-- The jump offset, in the bits of the word itself (R75). -/
theorem jumpOffset_eq_wordBits :
    jumpOffset (immUOf w) = (w.extractLsb' 31 1 ++ w.extractLsb' 12 8 ++ w.extractLsb' 20 1 ++
      w.extractLsb' 21 10 ++ 0#1).signExtend 32 := by
  simp [jumpOffset, signExtend, immUOf, extractLsb'_extractLsb']

theorem toInt_branchOffset :
    (branchOffset (funct7Of w) (rdOf w)).toInt =
      -4096 * (w.extractLsb' 31 1).toNat + 2048 * (w.extractLsb' 7 1).toNat +
        32 * (w.extractLsb' 25 6).toNat + 2 * (w.extractLsb' 8 4).toNat := by
  rw [branchOffset_eq_wordBits, BitVec.toInt_signExtend_of_le (by decide)]
  simp only [toInt_append_of_ne_zero, toInt_eq_neg_toNat_of_one_bit, BitVec.toNat_ofNat, ne_eq,
    Nat.add_eq_zero_iff, one_ne_zero, false_and, not_false_eq_true]
  omega

theorem toInt_jumpOffset :
    (jumpOffset (immUOf w)).toInt =
      -1048576 * (w.extractLsb' 31 1).toNat + 4096 * (w.extractLsb' 12 8).toNat +
        2048 * (w.extractLsb' 20 1).toNat + 2 * (w.extractLsb' 21 10).toNat := by
  rw [jumpOffset_eq_wordBits, BitVec.toInt_signExtend_of_le (by decide)]
  simp only [toInt_append_of_ne_zero, toInt_eq_neg_toNat_of_one_bit, BitVec.toNat_ofNat, ne_eq,
    Nat.add_eq_zero_iff, one_ne_zero, false_and, not_false_eq_true]
  omega

end

/-- Settles O10. -/
theorem immediateFieldValues : Obligations.ImmediateFieldValues := by
  intro w
  refine ⟨⟨toInt_immI_immIOf w, toInt_signExtend_twelve_range _⟩,
    ⟨toInt_storeOffset w, toInt_signExtend_twelve_range _⟩, toInt_branchOffset w, ?_⟩
  have h31 := (w.extractLsb' 31 1).isLt
  have h7 := (w.extractLsb' 7 1).isLt
  have h25 := (w.extractLsb' 25 6).isLt
  have h8 := (w.extractLsb' 8 4).isLt
  rw [toInt_branchOffset]
  omega

/-- Settles O11. -/
theorem jumpOffsetValue : Obligations.JumpOffsetValue := by
  intro w
  refine ⟨toInt_jumpOffset w, ?_⟩
  have h31 := (w.extractLsb' 31 1).isLt
  have h12 := (w.extractLsb' 12 8).isLt
  have h20 := (w.extractLsb' 20 1).isLt
  have h21 := (w.extractLsb' 21 10).isLt
  rw [toInt_jumpOffset]
  omega

/-! ## The next pc is even (R74, R75, R170, R177) -/

/-- A field whose lowest bit is 0 is even when it is sign-extended. -/
theorem signExtend_append_zero_even {n : Nat} (x : BitVec n) :
    (signExtend (x ++ 0#1)).toNat % 2 = 0 := by
  have hbit : (signExtend (x ++ 0#1)).getLsbD 0 = false := by
    rw [signExtend, BitVec.getLsbD_signExtend]
    simp [BitVec.getElem_append]
  simpa [BitVec.getLsbD, Nat.testBit_zero] using hbit

theorem branchOffset_even (hi : BitVec 7) (lo : BitVec 5) : (branchOffset hi lo).toNat % 2 = 0 :=
  signExtend_append_zero_even _

theorem jumpOffset_even (imm : BitVec 20) : (jumpOffset imm).toNat % 2 = 0 :=
  signExtend_append_zero_even _

theorem NextForm.pc_even {i : Instr} {s t : State} (h : NextForm i s t)
    (hs : s.pc.toNat % 2 = 0) : t.pc.toNat % 2 = 0 := by
  have add_even {a : Word} (ha : a.toNat % 2 = 0) : (s.pc + a).toNat % 2 = 0 := by
    rw [BitVec.toNat_add]
    omega
  cases h with
  | branched hi lo => exact add_even (branchOffset_even hi lo)
  | linked rd imm => exact add_even (jumpOffset_even imm)
  | wrote | advanced | stored | drew | printed => simpa using add_even (a := 4) rfl
  | raised | exited => exact hs

/-- Settles O51, by the forms of the next state: pc stays, or an even number is added to it. -/
theorem pcStaysEven : Obligations.PcStaysEven := by
  intro s t hs hstep
  obtain ⟨-, ⟨e, -, rfl⟩ | ⟨i, -, hexec⟩⟩ := step_next hstep
  · exact hs
  · exact (exec_next hexec).pc_even hs

/-- Settles O15: a running state's step answers a next state, and an ended one's is a fault. -/
theorem runningStepCompletes : Obligations.RunningStepCompletes := by
  refine ⟨fun _ => step_of_running, fun s r hrefused => ?_⟩
  by_cases hr : s.status = .running
  · obtain ⟨t, ht⟩ := step_of_running hr
    cases ht.symm.trans hrefused
  · cases (step_of_ended hr).symm.trans hrefused

/-! ## What the handlers of opcodes 0x33 and 0x13 do (R22, R100, R130) -/

/-- An instruction whose meaning reads x[rs1] and goes on as f: what holds whenever it answers as f
does of the value is a postcondition (R22). -/
theorem readsOne_of_withReg {i : Instr} {s : State} {rs1 : RegIdx} {f : Word → Result}
    {post : Word → Prop} (hexec : exec i s = withReg s rs1 f)
    (hpost : ∀ a, exec i s = f a → post a) : ReadsOne i s rs1 post := by
  refine ⟨fun a ha => hpost a ?_, fun hunset => ?_⟩
  · rw [hexec, withReg_of_val _ ha]
  · rw [hexec]
    exact raisesOn_withReg f hunset

section
variable {i : Instr} {s : State} {rd rs1 rs2 : RegIdx}

theorem readsOne_of_immediateOp {f : Word → Word} (hexec : exec i s = immediateOp s rd rs1 f) :
    ReadsOne i s rs1 fun a => WritesOnly (exec i s) s rd (f a) (s.pc + 4) :=
  readsOne_of_withReg hexec fun _ h => h ▸ writesOnly_writeReg_advance s rd _

theorem readsTwo_of_registerOp {f : Word → Word → Word}
    (hexec : exec i s = registerOp s rd rs1 rs2 f) :
    ReadsTwo i s rs1 rs2 fun a b => WritesOnly (exec i s) s rd (f a b) (s.pc + 4) :=
  readsTwo_of_withReg hexec fun _ _ h => h ▸ writesOnly_writeReg_advance s rd _

theorem ReadsOne.imp {p q : Word → Prop} (h : ReadsOne i s rs1 p) (hpq : ∀ a, p a → q a) :
    ReadsOne i s rs1 q :=
  ⟨fun a ha => hpq a (h.1 a ha), h.2⟩

theorem ReadsTwo.imp {p q : Word → Word → Prop} (h : ReadsTwo i s rs1 rs2 p)
    (hpq : ∀ a b, p a b → q a b) : ReadsTwo i s rs1 rs2 q :=
  ⟨fun a b ha hb => hpq a b (h.1 a b ha hb), h.2⟩

end

/-! ## SLT and AND (R105, R110) -/

section
variable {a b : Word}

theorem setLess_of_lt (h : a.toInt < b.toInt) : setLess a b = 1 := if_pos h

theorem setLess_of_le (h : b.toInt ≤ a.toInt) : setLess a b = 0 := if_neg (Int.not_lt.2 h)

end

/-- Settles O24. -/
theorem setLessAndResults : Obligations.SetLessAndResults := by
  intro strict s rd rs1 rs2 f7
  refine ⟨fun hf7 => ?_, (readsTwo_of_registerOp rfl).imp fun a b h => ?_,
    (readsTwo_of_registerOp rfl).imp fun a b h => ⟨_, fun _ => BitVec.getLsbD_and, h⟩⟩
  · have hwf : (!strict || f7 == 0x00#7) = true := by simpa using hf7
    exact ⟨decodeOfEncode strict (.slt rd rs1 rs2 f7) hwf,
      decodeOfEncode strict (.and rd rs1 rs2 f7) hwf⟩
  · exact ⟨fun hlt => setLess_of_lt hlt ▸ h, fun hle => setLess_of_le hle ▸ h⟩

/-! ## Shifts (R72, R132, R136, R137) -/

/-- A left shift multiplies by a power of two, modulo 2^32. -/
theorem shiftLeft_eq_mul (a : Word) (k : Nat) :
    shiftLeft a k = BitVec.ofNat 32 (a.toNat * 2 ^ k) := by
  apply BitVec.eq_of_toNat_eq
  simp [shiftLeft, Nat.shiftLeft_eq]

/-- A logical right shift divides the unsigned value. -/
theorem shiftRightLogical_eq_div (a : Word) (k : Nat) :
    shiftRightLogical a k = BitVec.ofNat 32 (a.toNat / 2 ^ k) := by
  rw [← Nat.shiftRight_eq_div_pow, ← BitVec.toNat_ushiftRight, BitVec.ofNat_toNat,
    BitVec.setWidth_eq, shiftRightLogical]

/-- An arithmetic right shift divides the signed value, rounding down. -/
theorem shiftRightArith_eq_fdiv (a : Word) (k : Nat) :
    shiftRightArith a k = BitVec.ofInt 32 (a.toInt.fdiv (2 ^ k)) := by
  have hquotient : (a.sshiftRight k).toInt = a.toInt.fdiv (2 ^ k) := by
    rw [BitVec.toInt_sshiftRight, Int.shiftRight_eq_div_pow,
      Int.fdiv_eq_ediv_of_nonneg _ (by positivity)]
    norm_cast
  rw [← hquotient, BitVec.ofInt_toInt, shiftRightArith]

/-- The signed 5-bit count taken modulo 32 is the unsigned one (D11). -/
theorem shiftImm_eq_signed_mod (sh : BitVec 5) : shiftImm sh = (sh.toInt % 32).toNat := by
  have := sh.isLt
  rw [shiftImm, BitVec.toInt_eq_toNat_cond]
  split <;> omega

/-- Settles O33. -/
theorem shiftImmediateResults : Obligations.ShiftImmediateResults := by
  intro strict s rd rs1 sh upper count
  have hcount : shiftImm sh = count := shiftImm_eq_signed_mod sh
  refine ⟨decodeOfEncode strict (.slli rd rs1 sh upper) rfl,
    (readsOne_of_immediateOp rfl).imp fun a h => ?slli,
    fun hne => decodeOfEncode strict (.srli rd rs1 sh upper) (bne_iff_ne.2 hne),
    (readsOne_of_immediateOp rfl).imp fun a h => ?srli,
    decodeOfEncode strict (.srai rd rs1 sh) rfl,
    (readsOne_of_immediateOp rfl).imp fun a h => ?srai⟩
  case slli => rwa [← hcount, ← shiftLeft_eq_mul]
  case srli => rwa [← hcount, ← shiftRightLogical_eq_div]
  case srai => rwa [← hcount, ← shiftRightArith_eq_fdiv]

/-! ## JAL (R172) -/

theorem writesOnly_writeReg_jump (s : State) (rd : RegIdx) (v target : Word) :
    WritesOnly (.next ((s.writeReg rd v).jump target)) s rd v target :=
  ⟨_, rfl, fun j => State.reg_writeReg s rd j v, by simp, by simp, by simp [SameRun]⟩

/-- Settles O39. -/
theorem jumpAndLinkResult : Obligations.JumpAndLinkResult := by
  intro strict s rd imm w
  refine ⟨decodeOfEncode strict (.jal rd imm) rfl, ?_⟩
  rw [← jumpOffset_eq_wordBits, immUOf_packU]
  exact writesOnly_writeReg_jump s rd _ _

end Sys2Proof.Machine

/-! # Register-register instructions (spec/40_register_register.md): the sum and the difference, the
bitwise and shift results, products, quotients and remainders -/

namespace Sys2Proof.Machine

/-! ## ADD and SUB (R102, R103) -/

theorem aluAdd_eq_ofNat (a b : Word) : aluAdd a b = BitVec.ofNat 32 (a.toNat + b.toNat) :=
  BitVec.add_def a b

theorem aluSub_eq_ofInt (a b : Word) : aluSub a b = BitVec.ofInt 32 (a.toNat - b.toNat : Int) := by
  apply BitVec.eq_of_toNat_eq
  rw [aluSub, BitVec.toNat_sub, BitVec.toNat_ofInt]
  omega

/-- Settles O22. -/
theorem addSubResults : Obligations.AddSubResults := fun strict _ rd rs1 rs2 =>
  ⟨decodeOfEncode strict (.add rd rs1 rs2) rfl,
    (readsTwo_of_registerOp rfl).imp fun a b h => aluAdd_eq_ofNat a b ▸ h,
    decodeOfEncode strict (.sub rd rs1 rs2) rfl,
    (readsTwo_of_registerOp rfl).imp fun a b h => aluSub_eq_ofInt a b ▸ h⟩

/-! ## XOR and OR (R106, R109) -/

/-- Settles O23. -/
theorem xorOrResults : Obligations.XorOrResults := fun strict _ rd rs1 rs2 =>
  ⟨decodeOfEncode strict (.xor rd rs1 rs2) rfl,
    (readsTwo_of_registerOp rfl).imp fun _ _ h => ⟨_, fun _ => BitVec.getLsbD_xor, h⟩,
    decodeOfEncode strict (.or rd rs1 rs2) rfl,
    (readsTwo_of_registerOp rfl).imp fun _ _ h => ⟨_, fun _ => BitVec.getLsbD_or, h⟩⟩

/-! ## SLL, SRL and SRA (R101, R104, R107, R108) -/

/-- The low 5 bits of x[rs2] are its value modulo 32 (D10). -/
theorem shiftReg_eq_mod (b : Word) : shiftReg b = b.toNat % 32 := by
  simp [shiftReg]

/-- Settles O25. -/
theorem shiftResults : Obligations.ShiftResults := by
  intro strict s rd rs1 rs2
  refine ⟨decodeOfEncode strict (.sll rd rs1 rs2) rfl,
    (readsTwo_of_registerOp rfl).imp fun a b h => ?sll,
    decodeOfEncode strict (.srl rd rs1 rs2) rfl,
    (readsTwo_of_registerOp rfl).imp fun a b h => ?srl,
    decodeOfEncode strict (.sra rd rs1 rs2) rfl,
    (readsTwo_of_registerOp rfl).imp fun a b h => ?sra⟩
  case sll => rwa [← shiftReg_eq_mod, ← shiftLeft_eq_mul]
  case srl => rwa [← shiftReg_eq_mod, ← shiftRightLogical_eq_div]
  case sra => rwa [← shiftReg_eq_mod, ← shiftRightArith_eq_fdiv]

/-! ## MUL (R111) -/

theorem mulLow_eq_ofNat (a b : Word) : mulLow a b = BitVec.ofNat 32 (a.toNat * b.toNat) := by
  apply BitVec.eq_of_toNat_eq
  rw [mulLow, BitVec.toNat_mul, BitVec.toNat_ofNat]

theorem mulLow_eq_ofInt (a b : Word) : mulLow a b = BitVec.ofInt 32 (a.toInt * b.toInt) := by
  rw [mulLow, BitVec.ofInt_mul, BitVec.ofInt_toInt, BitVec.ofInt_toInt]

/-- Settles O26. -/
theorem mulResult : Obligations.MulResult := fun strict _ rd rs1 rs2 =>
  ⟨decodeOfEncode strict (.mul rd rs1 rs2) rfl, (readsTwo_of_registerOp rfl).imp fun a b h =>
    ⟨(mulLow_eq_ofNat a b).symm.trans (mulLow_eq_ofInt a b), mulLow_eq_ofNat a b ▸ h⟩⟩

/-! ## MULH (R112) -/

/-- Bits 62:31 of an integer's low 64 bits are its quotient by 2^31, rounded down, in 32 bits. -/
theorem extractLsb'_ofInt_eq_trunc32_fdiv (i : Int) :
    (BitVec.ofInt 64 i).extractLsb' 31 32 = trunc32 (i.fdiv (2 ^ 31)) := by
  apply BitVec.eq_of_toNat_eq
  rw [trunc32, BitVec.extractLsb'_toNat, BitVec.toNat_ofInt, BitVec.toNat_ofInt,
    Nat.shiftRight_eq_div_pow, Int.fdiv_eq_ediv_of_nonneg _ (by decide)]
  omega

theorem mulHigh_wide64 (a b : Word) :
    mulHigh .wide64 a b = (a.signExtend 64 * b.signExtend 64).extractLsb' 31 32 := by
  have hproduct : a.signExtend 64 * b.signExtend 64 = BitVec.ofInt 64 (a.toInt * b.toInt) :=
    (BitVec.ofInt_mul a.toInt b.toInt).symm
  rw [hproduct, extractLsb'_ofInt_eq_trunc32_fdiv, mulHigh]

/-- An arithmetic right shift by 31 leaves 32 copies of the sign bit. -/
theorem sshiftRight_thirtyOne (x : Word) :
    x.sshiftRight 31 = if x.msb then 0xFFFFFFFF else 0 := by
  apply BitVec.eq_of_toInt_eq
  rw [BitVec.toInt_sshiftRight, Int.shiftRight_eq_div_pow]
  cases hx : x.msb with
  | true =>
    have hneg := BitVec.toInt_neg_of_msb_true hx
    have hlow := x.le_toInt
    change x.toInt / 2 ^ 31 = -1
    omega
  | false =>
    have hnonneg := BitVec.toInt_nonneg_of_msb_false hx
    have hhigh := x.toInt_lt
    change x.toInt / 2 ^ 31 = 0
    omega

/-- Bit 31 of the low product is bit 31 of the whole one. -/
theorem msb_mul_eq_testBit (a b : Word) : (a * b).msb = (a.toNat * b.toNat).testBit 31 := by
  rw [BitVec.msb_eq_getLsbD_last, BitVec.getLsbD, BitVec.toNat_mul, Nat.testBit_mod_two_pow]
  simp

theorem mulHigh_narrow32 (a b : Word) :
    mulHigh .narrow32 a b = if (a.toNat * b.toNat).testBit 31 then 0xFFFFFFFF else 0 := by
  rw [mulHigh, sshiftRight_thirtyOne, msb_mul_eq_testBit]

/-- Settles O27. -/
theorem mulhResult : Obligations.MulhResult := by
  intro strict s rd rs1 rs2
  refine ⟨decodeOfEncode strict (.mulh rd rs1 rs2) rfl,
    (readsTwo_of_registerOp rfl).imp fun a b h => ⟨fun hmode => ?wide, fun hmode => ?narrow⟩⟩
  case wide => rwa [hmode, mulHigh_wide64] at h
  case narrow => rwa [hmode, mulHigh_narrow32] at h

/-! ## DIV and REM (R113, R114) -/

/-- The quotient `Int.tdiv` is the one rounded toward zero. -/
theorem truncatedQuotient_tdiv (a : Int) {b : Int} (hb : b ≠ 0) :
    truncatedQuotient a b (a.tdiv b) := by
  rw [truncatedQuotient, ← Int.tmod_def]
  refine ⟨?smaller, Int.tmod_nonneg b, fun ha => ?nonpos⟩
  case smaller =>
    rw [Int.natAbs_tmod]
    exact Nat.mod_lt _ (Int.natAbs_pos.2 hb)
  case nonpos =>
    have hneg : 0 ≤ (-a).tmod b := Int.tmod_nonneg b (Int.neg_nonneg.2 ha)
    rw [Int.neg_tmod] at hneg
    exact Int.neg_nonneg.1 hneg

theorem divideCorner_iff {a b : Word} : divideCorner a b = true ↔ corner a b := by
  simp [divideCorner, corner]

/-- Outside the corner cases the quotient is a signed 32-bit number, so none of it is lost. -/
theorem toInt_divTrunc {a b : Word} (h : ¬ corner a b) :
    (divTrunc a b).toInt = a.toInt.tdiv b.toInt := by
  have hmin : a ≠ BitVec.intMin 32 ∨ b ≠ -1#32 :=
    not_and_or.1 fun hab => h (.inr hab)
  rw [divTrunc, trunc32, ← BitVec.toInt_sdiv_of_ne_or_ne a b hmin, BitVec.ofInt_toInt]

/-- What the quotient leaves over is a signed 32-bit number, in the corner cases too. -/
theorem toInt_remTrunc (a b : Word) :
    (remTrunc a b).toInt = a.toInt - b.toInt * a.toInt.tdiv b.toInt := by
  rw [remTrunc, trunc32, ← Int.tmod_def, ← BitVec.toInt_srem, BitVec.ofInt_toInt]

theorem toInt_ne_zero_of_not_corner {a b : Word} (h : ¬ corner a b) : b.toInt ≠ 0 :=
  fun hb => h (.inl (BitVec.toInt_inj.1 hb))

/-- What the handler of DIV and REM does, by DIV_CORNER: f outside the corner cases; in them
DivideFault of the word, or g (D13). -/
theorem readsTwo_of_divideOp {i : Instr} {s : State} {w : Word} {rd rs1 rs2 : RegIdx}
    {f g : Word → Word → Word} (hexec : exec i s = divideOp s w rd rs1 rs2 f g) :
    ReadsTwo i s rs1 rs2 fun a b =>
      (¬ corner a b → WritesOnly (exec i s) s rd (f a b) (s.pc + 4)) ∧
      (corner a b → s.params.divCorner = .fault → RaisesOn (exec i s) s (.divideFault w)) ∧
      (corner a b → s.params.divCorner = .riscv →
        WritesOnly (exec i s) s rd (g a b) (s.pc + 4)) := by
  refine readsTwo_of_withReg hexec fun a b h =>
    ⟨fun hc => ?regular, fun hc hmode => ?fault, fun hc hmode => ?riscv⟩
  case regular =>
    rw [h, if_neg (mt divideCorner_iff.1 hc)]
    exact writesOnly_writeReg_advance s rd _
  case fault =>
    rw [h, if_pos (divideCorner_iff.2 hc), hmode]
    exact raisesOn_raised s _
  case riscv =>
    rw [h, if_pos (divideCorner_iff.2 hc), hmode]
    exact writesOnly_writeReg_advance s rd _

/-- Settles O28. -/
theorem divResult : Obligations.DivResult := fun strict _ rd rs1 rs2 =>
  ⟨decodeOfEncode strict (.div rd rs1 rs2) rfl,
    (readsTwo_of_divideOp rfl).imp fun a b ⟨hquotient, hfault, hriscv⟩ =>
      ⟨fun hc => ⟨divTrunc a b, toInt_divTrunc hc ▸
        truncatedQuotient_tdiv _ (toInt_ne_zero_of_not_corner hc), hquotient hc⟩, hfault, hriscv⟩⟩

/-- Settles O29. -/
theorem remResult : Obligations.RemResult := fun strict _ rd rs1 rs2 =>
  ⟨decodeOfEncode strict (.rem rd rs1 rs2) rfl,
    (readsTwo_of_divideOp rfl).imp fun a b ⟨hremainder, hfault, hriscv⟩ =>
      ⟨fun hc => ⟨_, remTrunc a b, truncatedQuotient_tdiv _ (toInt_ne_zero_of_not_corner hc),
        toInt_remTrunc a b, hremainder hc⟩, hfault, hriscv⟩⟩

end Sys2Proof.Machine

/-! # Register-immediate instructions (spec/41_immediate.md): the sum, the signed comparison and the
bitwise results with the sign-extended immediate -/

namespace Sys2Proof.Machine

section
variable (imm : BitVec 12)

/-! ## The sign-extended immediate (R71) -/

theorem toInt_immI : (immI imm).toInt = imm.toInt := toInt_signExtend (by decide) imm

theorem ofInt_toInt_immI : BitVec.ofInt 32 imm.toInt = immI imm := by
  rw [← toInt_immI, BitVec.ofInt_toInt]

/-- Above bit 11 the extended immediate repeats that bit. -/
theorem getLsbD_immI (k : Nat) : (immI imm).getLsbD k = immBit imm k := by
  rw [immI, signExtend, BitVec.getLsbD_signExtend, immBit]
  by_cases hk : k < 12
  · rw [if_pos hk, Nat.min_eq_left (Nat.le_of_lt_succ hk)]
  · rw [if_neg hk, Nat.min_eq_right (by omega), BitVec.msb_eq_getLsbD_last]

theorem aluAdd_immI_eq_ofInt (a : Word) :
    aluAdd a (immI imm) = BitVec.ofInt 32 (a.toInt + imm.toInt) := by
  rw [BitVec.ofInt_add, BitVec.ofInt_toInt, ofInt_toInt_immI, aluAdd]

end

/-! ## ADDI and SLTI (R131, R133) -/

/-- Settles O31. -/
theorem addSetLessImmediateResults : Obligations.AddSetLessImmediateResults := by
  intro strict s rd rs1 imm
  refine ⟨decodeOfEncode strict (.addi rd rs1 imm) rfl,
    (readsOne_of_immediateOp rfl).imp fun a h => aluAdd_immI_eq_ofInt imm a ▸ h,
    decodeOfEncode strict (.slti rd rs1 imm) rfl,
    (readsOne_of_immediateOp rfl).imp fun a h => ?slti⟩
  case slti =>
    rw [← toInt_immI imm]
    exact ⟨fun hlt => setLess_of_lt hlt ▸ h, fun hle => setLess_of_le hle ▸ h⟩

/-! ## XORI, ORI and ANDI (R134, R138, R139) -/

/-- Settles O32: each result is the bitwise operation with the extended immediate, whose bits are
those of the field. -/
theorem logicImmediateResults : Obligations.LogicImmediateResults := by
  intro strict s rd rs1 imm
  simp only [← getLsbD_immI]
  exact ⟨decodeOfEncode strict (.xori rd rs1 imm) rfl,
    (readsOne_of_immediateOp rfl).imp fun _ h => ⟨_, fun _ => BitVec.getLsbD_xor, h⟩,
    decodeOfEncode strict (.ori rd rs1 imm) rfl,
    (readsOne_of_immediateOp rfl).imp fun _ h => ⟨_, fun _ => BitVec.getLsbD_or, h⟩,
    decodeOfEncode strict (.andi rd rs1 imm) rfl,
    (readsOne_of_immediateOp rfl).imp fun _ h => ⟨_, fun _ => BitVec.getLsbD_and, h⟩⟩

end Sys2Proof.Machine

/-! # Loads and stores (spec/42_load_store.md): unmapped sub-opcodes, what a load writes, what a
store leaves in memory, and a load after a store -/

namespace Sys2Proof.Machine

/-! ## Unmapped sub-opcodes (R81, R154, R159, R175) -/

/-- A field that is at least n is none of the values below n. -/
theorem ne_of_le_toNat {m n : Nat} {x : BitVec m} (h : n ≤ x.toNat) (y : BitVec m)
    (hy : y.toNat < n) : x ≠ y := by
  rintro rfl
  omega

theorem decode_of_unmappedFunct3 {strict : Bool} {w : Word} (h : unmappedFunct3 w) :
    decode strict w = .error (.invalidInstruction w) := by
  obtain ⟨ho, hf3⟩ | ⟨ho, hf3⟩ | ⟨ho, hf3⟩ := h
  case inl => simp [decode, ho, decodeLoad, ne_of_le_toNat hf3]
  case inr.inl => simp [decode, ho, decodeStore, ne_of_le_toNat hf3]
  case inr.inr => simp [decode, ho, decodeBranch, ne_of_le_toNat hf3]

/-- Settles O6: decoding rejects the word before any register is read. -/
theorem unmappedFunct3Fails : Obligations.UnmappedFunct3Fails :=
  fun _ _ hr hf hw => raisesOn_step_of_rejected hr hf (decode_of_unmappedFunct3 hw)

/-! ## Effective addresses (R150, R155) -/

/-- A base plus a sign-extended field is their integer sum modulo 2^32 (D9). -/
theorem add_signExtend_eq_ofInt {n : Nat} (hn : n ≤ 32) (base : Word) (field : BitVec n) :
    base + signExtend field = BitVec.ofInt 32 (base.toNat + field.toInt) := by
  rw [BitVec.ofInt_add, BitVec.ofInt_natCast, BitVec.ofNat_toNat, BitVec.setWidth_eq,
    ← toInt_signExtend hn, BitVec.ofInt_toInt]

theorem loadAddress_eq_ofInt (base : Word) (imm : BitVec 12) :
    loadAddress base imm = BitVec.ofInt 32 (base.toNat + imm.toInt) :=
  add_signExtend_eq_ofInt (by decide) base imm

theorem storeAddress_eq_ofInt (base : Word) (hi : BitVec 7) (lo : BitVec 5) :
    storeAddress base hi lo = BitVec.ofInt 32 (base.toNat + (hi ++ lo).toInt) :=
  add_signExtend_eq_ofInt (by decide) base (hi ++ lo)

/-! ## LB, LH and LW (R150 to R153) -/

/-- `sext_n` of an n-bit value in 32 bits is the value's own sign extension (R11). -/
theorem sextN_setWidth {n : Nat} (hn : n ≤ 32) (x : BitVec n) :
    sextN n (x.setWidth 32) = x.signExtend 32 := by
  rw [sextN, signExtend, BitVec.extractLsb'_setWidth_of_le (by omega), BitVec.extractLsb'_eq_self]

theorem Memory.load_one (m : Memory) (a : Nat) : m.load a 1 = (m.read a).setWidth 32 := by
  simp [Memory.load]

theorem Memory.load_two (m : Memory) (a : Nat) :
    m.load a 2 = (m.read (a + 1) ++ m.read a).setWidth 32 := by
  apply BitVec.eq_of_getLsbD_eq
  intro j hj
  rw [Memory.getLsbD_load _ _ _ _ hj, BitVec.getLsbD_setWidth, BitVec.getLsbD_append]
  interval_cases j <;> simp

theorem Memory.sextN_load_one (m : Memory) (a : Nat) :
    sextN 8 (m.load a 1) = (m.read a).signExtend 32 := by
  rw [Memory.load_one, sextN_setWidth (by decide)]

theorem Memory.sextN_load_two (m : Memory) (a : Nat) :
    sextN 16 (m.load a 2) = (m.read (a + 1) ++ m.read a).signExtend 32 := by
  rw [Memory.load_two, sextN_setWidth (by decide)]

/-- What the load handler does: the bounds check chooses between the write of the extended value and
InvalidRead (R44, R150). -/
theorem readsOne_of_loadOp {i : Instr} {s : State} {rd rs1 : RegIdx} {imm : BitVec 12} {n : Nat}
    {extend : Word → Word} (hexec : exec i s = loadOp s rd rs1 imm n extend) :
    ReadsOne i s rs1 fun base =>
      let ea : Word := BitVec.ofInt 32 (base.toNat + imm.toInt)
      (ea.toNat + n ≤ s.params.memSize →
        WritesOnly (exec i s) s rd (extend (s.mem.load ea.toNat n)) (s.pc + 4)) ∧
      (s.params.memSize < ea.toNat + n → RaisesOn (exec i s) s (.invalidRead ea)) := by
  refine readsOne_of_withReg hexec fun base h => ?_
  rw [h, loadAddress_eq_ofInt]
  refine ⟨fun hin => ?_, fun hout => ?_⟩
  · rw [withLoad_of_admits _ (State.admits_iff.2 hin)]
    exact writesOnly_writeReg_advance s rd _
  · rw [withLoad_of_not _ (State.not_admits_iff.2 hout)]
    exact raisesOn_raised s _

/-- Settles O35: the stated values are the extended loads of 1, 2 and 4 bytes. -/
theorem loadResults : Obligations.LoadResults := by
  intro strict s rd rs1 imm
  simp only [← Memory.sextN_load_one, ← Memory.sextN_load_two, ← Memory.load_four_eq_wordAt]
  exact ⟨decodeOfEncode strict (.lb rd rs1 imm) rfl, readsOne_of_loadOp rfl,
    decodeOfEncode strict (.lh rd rs1 imm) rfl, readsOne_of_loadOp rfl,
    decodeOfEncode strict (.lw rd rs1 imm) rfl,
    readsOne_of_loadOp (extend := fun v => v) rfl⟩

/-! ## SB, SH and SW (R155 to R158) -/

/-- Byte k of a word is its low byte after a shift by 8k. -/
theorem extractLsb'_byte_eq_shift (v : Word) (k : Nat) :
    v.extractLsb' (8 * k) 8 = (v >>> (8 * k)).setWidth 8 := by
  apply BitVec.eq_of_toNat_eq
  simp

theorem storesOnly_store_advance {s : State} (hm : s.mem.wf) (a n : Nat) (v : Word) :
    StoresOnly (.next ({ s with mem := s.mem.store a n v } : State).advance) s a n v := by
  refine ⟨_, rfl, fun _ => rfl, fun k hk => ?inside,
    Memory.read_store_outside s.mem a n v, rfl, rfl, rfl, rfl, rfl⟩
  case inside =>
    rw [extractLsb'_byte_eq_shift]
    exact Memory.read_store_inside hm a n v k hk

/-- What the store handler does: the bounds check chooses between the store and InvalidWrite (R44,
R155). -/
theorem readsTwo_of_storeOp {i : Instr} {s : State} {rs1 rs2 : RegIdx} {hi : BitVec 7}
    {lo : BitVec 5} {n : Nat} (hexec : exec i s = storeOp s rs1 rs2 hi lo n) :
    ReadsTwo i s rs1 rs2 fun base v =>
      let ea : Word := BitVec.ofInt 32 (base.toNat + (hi ++ lo).toInt)
      (s.mem.wf → ea.toNat + n ≤ s.params.memSize → StoresOnly (exec i s) s ea.toNat n v) ∧
      (s.params.memSize < ea.toNat + n → RaisesOn (exec i s) s (.invalidWrite ea)) := by
  refine readsTwo_of_withReg hexec fun base v h => ?_
  rw [h, storeAddress_eq_ofInt]
  refine ⟨fun hm hin => ?_, fun hout => ?_⟩
  · rw [withStore_of_admits _ (State.admits_iff.2 hin)]
    exact storesOnly_store_advance hm _ n v
  · rw [withStore_of_not _ (State.not_admits_iff.2 hout)]
    exact raisesOn_raised s _

/-- Settles O36: each of the three instructions is the store handler at its own number of bytes. -/
theorem storeResults : Obligations.StoreResults := by
  intro strict s rs1 rs2 hi lo
  refine ⟨decodeOfEncode strict (.sb rs1 rs2 hi lo) rfl,
    decodeOfEncode strict (.sh rs1 rs2 hi lo) rfl, decodeOfEncode strict (.sw rs1 rs2 hi lo) rfl,
    fun i n hmem => readsTwo_of_storeOp ?_⟩
  simp only [List.mem_cons, Prod.mk.injEq, List.not_mem_nil, or_false] at hmem
  obtain ⟨rfl, rfl⟩ | ⟨rfl, rfl⟩ | ⟨rfl, rfl⟩ := hmem <;> rfl

/-! ## A load after a store (R160) -/

/-- A store and a load of the same bytes within memory: neither check fails (R14, R44). -/
theorem withStore_withLoad {s : State} {a v : Word} {n : Nat} (k : Word → Result)
    (hin : a.toNat + n ≤ s.params.memSize) :
    withStore s a n v (fun t => withLoad t a n k) =
      k ((s.mem.store a.toNat n v).load a.toNat n) := by
  rw [withStore_of_admits _ (State.admits_iff.2 hin)]
  exact withLoad_of_admits k (State.admits_iff.2 hin)

/-- Sign-extending what a load gives back of n stored bytes is sign-extending the low n bytes of the
stored value. -/
theorem Memory.sextN_load_store {m : Memory} (hm : m.wf) (a : Nat) {n : Nat} (hn : 8 * n ≤ 32)
    (v : Word) : sextN (8 * n) ((m.store a n v).load a n) = sextN (8 * n) v := by
  rw [Memory.load_store hm, sextN_setWidth hn, BitVec.setWidth_eq_extractLsb' hn, sextN, signExtend]

/-- Settles O37: what is loaded is the low bytes of the stored value; four bytes are all of it, and
fewer are sign-extended alike on both sides. -/
theorem storeThenLoadGivesValueBack : Obligations.StoreThenLoadGivesValueBack := by
  intro s a v k hm
  refine ⟨fun hin => ?word, fun hin => ?byte, fun hin => ?half⟩
  case word => simp [withStore_withLoad _ hin, Memory.load_store hm]
  case byte =>
    rw [withStore_withLoad _ hin]
    exact congrArg k (Memory.sextN_load_store (n := 1) hm _ (by decide) v)
  case half =>
    rw [withStore_withLoad _ hin]
    exact congrArg k (Memory.sextN_load_store (n := 2) hm _ (by decide) v)

end Sys2Proof.Machine

/-! # Control transfer (spec/43_control_transfer.md): the branches, and the opcodes no handler takes -/

namespace Sys2Proof.Machine

/-! ## BEQ and BNE (R171, R173, R174) -/

theorem movesOnly_jump (s : State) (target : Word) : MovesOnly (.next (s.jump target)) s target :=
  ⟨_, rfl, fun _ => rfl, fun _ => rfl, rfl, rfl, rfl, rfl, rfl⟩

theorem branchEq_iff {a b : Word} : branchEq a b = true ↔ a = b := beq_iff_eq

theorem branchNe_iff {a b : Word} : branchNe a b = true ↔ a ≠ b := bne_iff_ne

/-- The branch offset of a packed word's fields, in the bits of that word (R74). -/
theorem branchOffset_eq_packedBits (hi : BitVec 7) (lo : BitVec 5) (rs1 rs2 : RegIdx)
    (f3 : BitVec 3) (o : BitVec 7) :
    let w := packR hi rs2 rs1 f3 lo o
    branchOffset hi lo = (w.extractLsb' 31 1 ++ w.extractLsb' 7 1 ++ w.extractLsb' 25 6 ++
      w.extractLsb' 8 4 ++ 0#1).signExtend 32 := by
  intro w
  rw [← branchOffset_eq_wordBits, funct7Of_packR, rdOf_packR]

/-- What the branch handler does: the condition on the two values chooses between the jump by the
branch offset and the plain advance (R171). -/
theorem readsTwo_of_branchOp {i : Instr} {s : State} {rs1 rs2 : RegIdx} {hi : BitVec 7}
    {lo : BitVec 5} {taken : Word → Word → Bool} (hexec : exec i s = branchOp s rs1 rs2 hi lo taken) :
    ReadsTwo i s rs1 rs2 fun a b =>
      (taken a b = true → MovesOnly (exec i s) s (s.pc + branchOffset hi lo)) ∧
      (¬ taken a b = true → MovesOnly (exec i s) s (s.pc + 4)) := by
  refine readsTwo_of_withReg hexec fun a b h => ⟨fun htaken => ?_, fun hnot => ?_⟩
  · rw [h, if_pos htaken]
    exact movesOnly_jump s _
  · rw [h, if_neg hnot]
    exact movesOnly_advance s

/-- Settles O38: both are the branch handler, BEQ with equality for the condition and BNE with its
negation. -/
theorem branchResults : Obligations.BranchResults := by
  intro strict s rs1 rs2 hi lo target wEq wNe
  refine ⟨decodeOfEncode strict (.beq rs1 rs2 hi lo) rfl,
    (readsTwo_of_branchOp rfl).imp fun a b ⟨htaken, hnot⟩ => ?beq,
    decodeOfEncode strict (.bne rs1 rs2 hi lo) rfl,
    (readsTwo_of_branchOp rfl).imp fun a b ⟨htaken, hnot⟩ => ?bne⟩
  case beq =>
    rw [branchOffset_eq_packedBits hi lo rs1 rs2 0x0 0x63] at htaken
    exact ⟨fun heq => htaken (branchEq_iff.2 heq), fun hne => hnot (mt branchEq_iff.1 hne)⟩
  case bne =>
    rw [branchOffset_eq_packedBits hi lo rs1 rs2 0x1 0x63] at htaken
    exact ⟨fun hne => htaken (branchNe_iff.2 hne),
      fun heq => hnot fun h => branchNe_iff.1 h heq⟩

/-! ## Opcodes 0x67 and 0x17 (R176, R192) -/

/-- Settles O40: both decode, and their whole meaning is the raise with the encoded word (D17). -/
theorem unhandledOpcodesRaise : Obligations.UnhandledOpcodesRaise :=
  fun strict s rd rs1 f3 imm imm20 =>
  ⟨decodeOfEncode strict (.jalrUnhandled rd rs1 f3 imm) rfl, raisesOn_raised s _,
    decodeOfEncode strict (.auipcUnhandled rd imm20) rfl, raisesOn_raised s _⟩

end Sys2Proof.Machine

/-! # Upper-immediate instructions (spec/44_upper_immediate.md): the result of LUI, and the constant
LUI and ADDI build -/

namespace Sys2Proof.Machine

/-! ## LUI (R76, R190) -/

section
variable (imm : BitVec 20)

theorem upperImm_eq_ofInt : upperImm imm = BitVec.ofInt 32 (imm.toInt * 2 ^ 12) := by
  rw [upperImm, signExtend, BitVec.signExtend, BitVec.shiftLeft_eq_mul_twoPow, BitVec.ofInt_mul]
  rfl

/-- The copies of the sign bit are shifted out. -/
theorem upperImm_eq_append : upperImm imm = imm ++ 0#12 := by
  apply BitVec.eq_of_getLsbD_eq
  intro k hk
  rw [upperImm, signExtend, BitVec.getLsbD_shiftLeft, BitVec.getLsbD_signExtend,
    BitVec.getLsbD_append]
  by_cases hlow : k < 12
  · simp [hlow]
  · have hfield : k - 12 < 20 ∧ k - 12 < 32 := by omega
    simp [hlow, hk, hfield]

theorem toNat_upperImm : (upperImm imm).toNat = imm.toNat * 2 ^ 12 := by
  rw [upperImm_eq_append, BitVec.toNat_append, BitVec.toNat_zero, Nat.or_zero, Nat.shiftLeft_eq]

theorem writesOnly_lui (s : State) (rd : RegIdx) :
    WritesOnly (exec (.lui rd imm) s) s rd (upperImm imm) (s.pc + 4) :=
  writesOnly_writeReg_advance s rd _

end

/-- Settles O41. -/
theorem loadUpperResult : Obligations.LoadUpperResult := by
  intro strict s rd imm
  rw [← upperImm_eq_ofInt]
  exact ⟨decodeOfEncode strict (.lui rd imm) rfl, upperImm_eq_append imm,
    writesOnly_lui imm s rd⟩

/-! ## Building a constant (R191) -/

section
variable (v : Word)

/-- The low 12 bits of v read as signed are those of v + 0x800 read as unsigned, less 0x800. -/
theorem toInt_extractLsb'_low :
    (v.extractLsb' 0 12).toInt = (((v + 0x800).toNat % 2 ^ 12 : Nat) : Int) - 0x800 := by
  have hadd : (v + 0x800).toNat = (v.toNat + 0x800) % 2 ^ 32 := BitVec.toNat_add v 0x800
  rw [BitVec.toInt_eq_toNat_cond, BitVec.extractLsb'_toNat, hadd, Nat.shiftRight_zero]
  split <;> omega

/-- The upper 20 bits of v above 12 zero bits are v less its low 12 bits. -/
theorem upperImm_extractLsb' :
    upperImm (v.extractLsb' 12 20) = BitVec.ofInt 32 (v.toNat - (v.toNat % 2 ^ 12 : Nat)) := by
  apply BitVec.eq_of_toNat_eq
  rw [toNat_upperImm, BitVec.extractLsb'_toNat, BitVec.toNat_ofInt, Nat.shiftRight_eq_div_pow]
  omega

/-- Adding 0x800 before taking the upper bits makes up for the sign extension of the lower ones. -/
theorem upperImm_add_immI :
    upperImm ((v + 0x800).extractLsb' 12 20) + immI (v.extractLsb' 0 12) = v :=
  calc upperImm ((v + 0x800).extractLsb' 12 20) + immI (v.extractLsb' 0 12)
    _ = BitVec.ofInt 32 ((v + 0x800).toNat + -0x800) := by
      rw [upperImm_extractLsb', ← ofInt_toInt_immI, toInt_extractLsb'_low, ← BitVec.ofInt_add,
        sub_add_sub_cancel, sub_eq_add_neg]
    _ = v + 0x800 + BitVec.ofInt 32 (-0x800) := by
      rw [BitVec.ofInt_add, BitVec.ofInt_natCast, BitVec.ofNat_toNat, BitVec.setWidth_eq]
    _ = v + (0x800 + BitVec.ofInt 32 (-0x800)) := BitVec.add_assoc ..
    _ = v := BitVec.add_zero v

end

/-- The destination of a write that is not dropped holds the value written (R21). -/
theorem WritesOnly.exists_reg_self {r : Result} {s : State} {rd : RegIdx} {v pc : Word}
    (h : WritesOnly r s rd v pc) (htakes : ¬ (s.params.x0Policy = .discard ∧ rd = 0)) :
    ∃ t, r = .next t ∧ t.reg rd = .val v ∧ t.pc = pc ∧ t.params = s.params := by
  obtain ⟨t, hr, hreg, -, hpc, -, -, -, hparams⟩ := h
  exact ⟨t, hr, (hreg rd).trans (if_pos ⟨rfl, htakes⟩), hpc, hparams⟩

/-- Settles O42: ADDI reads back what LUI wrote, and the two immediates add up to v. -/
theorem luiThenAddiBuildsConstant : Obligations.LuiThenAddiBuildsConstant := by
  intro s rd v htakes
  obtain ⟨t, hlui, htreg, htpc, htparams⟩ := (writesOnly_lui _ s rd).exists_reg_self htakes
  obtain ⟨haddi, -⟩ :=
    readsOne_of_immediateOp (i := .addi rd rd (v.extractLsb' 0 12)) (s := t) rfl
  obtain ⟨u, hnext, hureg, hupc, -⟩ :=
    (haddi _ htreg).exists_reg_self (htparams.symm ▸ htakes)
  refine ⟨t, u, hlui, hnext, hureg.trans (congrArg _ (upperImm_add_immI v)), ?_⟩
  rw [hupc, htpc, BitVec.add_assoc]
  rfl

end Sys2Proof.Machine

/-! # ECALL (spec/45_syscall.md): the decimal text of syscall 1, and what a syscall answers -/

namespace Sys2Proof.Machine

/-! ## Decimal text (R202) -/

theorem toNat_digitByte {d : Nat} (hd : d < 10) : (digitByte d).toNat = 0x30 + d := by
  rw [digitByte, BitVec.toNat_ofNat]
  omega

section
variable (fuel : Nat) {n : Nat}

theorem digitsOf_succ_of_lt_ten (h : n < 10) : digitsOf (fuel + 1) n = [digitByte n] := if_pos h

theorem digitsOf_succ_of_ten_le (h : 10 ≤ n) :
    digitsOf (fuel + 1) n = digitsOf fuel (n / 10) ++ [digitByte (n % 10)] :=
  if_neg (Nat.not_lt.2 h)

end

theorem decimalDigits_digitByte {d : Nat} (hd : d < 10) : decimalDigits [digitByte d] d := by
  have hbyte := toNat_digitByte hd
  refine ⟨List.cons_ne_nil _ _, fun b hb => ?_, fun hzero => ?_, ?_⟩
  · rw [List.mem_singleton.1 hb]
    omega
  · exact congrArg (List.cons · []) (Option.some.inj hzero)
  · rw [List.foldl_cons, List.foldl_nil]
    omega

/-- A further digit leaves the first one in place, which is not 0 as the number before it is not. -/
theorem decimalDigits_append_digitByte {bytes : List Byte} {m d : Nat} (h : decimalDigits bytes m)
    (hm : m ≠ 0) (hd : d < 10) : decimalDigits (bytes ++ [digitByte d]) (10 * m + d) := by
  obtain ⟨hne, hrange, hlead, hvalue⟩ := h
  have hbyte := toNat_digitByte hd
  refine ⟨List.append_ne_nil_of_left_ne_nil hne _, fun b hb => ?_, fun hzero => ?_, ?_⟩
  · obtain hb | hb := List.mem_append.1 hb
    · exact hrange b hb
    · rw [List.mem_singleton.1 hb]
      omega
  · rw [List.head?_append_of_ne_nil _ hne] at hzero
    rw [hlead hzero] at hvalue
    exact absurd hvalue.symm hm
  · rw [List.foldl_append, hvalue, List.foldl_cons, List.foldl_nil]
    omega

/-- A fuel of n is enough, as each digit taken off makes the number smaller. -/
theorem decimalDigits_digitsOf {fuel n : Nat} (hfuel : n ≤ fuel) :
    decimalDigits (digitsOf fuel n) n := by
  induction fuel generalizing n with
  | zero =>
    obtain rfl := Nat.le_zero.1 hfuel
    exact decimalDigits_digitByte (Nat.succ_pos 9)
  | succ fuel ih =>
    by_cases hn : n < 10
    · rw [digitsOf_succ_of_lt_ten fuel hn]
      exact decimalDigits_digitByte hn
    · rw [digitsOf_succ_of_ten_le fuel (Nat.not_lt.1 hn)]
      have hdigits := decimalDigits_append_digitByte (ih (n := n / 10) (by omega)) (d := n % 10)
        (by omega) (by omega)
      rwa [Nat.div_add_mod] at hdigits

theorem decimal_eq (i : Int) :
    decimal i = (if i < 0 then [0x2D] else []) ++ digitsOf i.natAbs i.natAbs := by
  unfold decimal
  split <;> rfl

/-! ## The syscalls 1 and 11, and the numbers of no syscall (R200, R201, R205, R206) -/

section
variable {s : State} {a : Word} (rd rs1 : RegIdx) (f3 : BitVec 3) (imm : BitVec 12)

theorem exec_ecall_of_one (h10 : s.reg 10 = .val 1) (h11 : s.reg 11 = .val a) :
    exec (.ecall rd rs1 f3 imm) s = .next (s.emit (decimal a.toInt)).advance :=
  (withReg_of_val _ h10).trans (withReg_of_val _ h11)

theorem exec_ecall_of_eleven (h10 : s.reg 10 = .val 11) (h11 : s.reg 11 = .val a) :
    exec (.ecall rd rs1 f3 imm) s = .next (s.emit [a.extractLsb' 0 8]).advance :=
  (withReg_of_val _ h10).trans (withReg_of_val _ h11)

theorem exec_ecall_of_illegal {n : Word} (h10 : s.reg 10 = .val n)
    (hn : n ∉ ([1, 4, 10, 11] : List Word)) :
    exec (.ecall rd rs1 f3 imm) s = s.raised (.illegalSyscall n) := by
  simp only [List.mem_cons, List.not_mem_nil, or_false, not_or] at hn
  obtain ⟨hone, hfour, hten, heleven⟩ := hn
  exact (withReg_of_val _ h10).trans <| (if_neg hone).trans <| (if_neg hfour).trans <|
    (if_neg hten).trans (if_neg heleven)

end

/-- Settles O43: the text is the sign and the digits of the absolute value. -/
theorem printIntegerEffect : Obligations.PrintIntegerEffect := by
  intro s rd rs1 f3 imm a h10 h11
  refine ⟨_, decimalDigits_digitsOf le_rfl, ?_⟩
  rw [exec_ecall_of_one rd rs1 f3 imm h10 h11, decimal_eq]
  exact printsOnly_emit_advance s _

/-- Settles O46: the low 8 bits are the value modulo 256. -/
theorem printCharacterEffect : Obligations.PrintCharacterEffect := by
  intro s rd rs1 f3 imm a h10 h11
  have hbyte : a.extractLsb' 0 8 = BitVec.ofNat 8 (a.toNat % 256) :=
    BitVec.eq_of_toNat_eq (by simp)
  rw [exec_ecall_of_eleven rd rs1 f3 imm h10 h11, hbyte]
  exact printsOnly_emit_advance s _

/-- Settles O47. -/
theorem illegalSyscallRaises : Obligations.IllegalSyscallRaises := by
  intro s rd rs1 f3 imm n h10 hn
  rw [exec_ecall_of_illegal rd rs1 f3 imm h10 hn]
  exact raisesOn_raised s _

end Sys2Proof.Machine

/-! # Exceptions (spec/60_exceptions.md): a failed step changes nothing else, and the word a
diagnostic records -/

namespace Sys2Proof.Machine

/-! ## A step that fails the run (R220, R227) -/

theorem NextForm.eq_raise_of_failed {i : Instr} {s t : State} {e : Err} (h : NextForm i s t)
    (hr : s.status = .running) (ht : t.status = .failed e) : t = s.raise e := by
  cases h with
  | raised e' => exact congrArg s.raise (Status.failed.inj ht)
  | exited => cases ht
  | wrote | advanced | branched | linked | stored | drew | printed => simp [hr] at ht

/-- A step that fails the run is the raise of its error. -/
theorem step_eq_raised_of_failed {s t : State} {e : Err} (h : step s = .next t)
    (ht : t.status = .failed e) : step s = s.raised e := by
  obtain ⟨hr, ⟨e', -, rfl⟩ | ⟨i, -, hexec⟩⟩ := step_next h
  · rw [h, ← Status.failed.inj ht, State.raised]
  · rw [h, (exec_next hexec).eq_raise_of_failed hr ht, State.raised]

/-- Settles O54. -/
theorem failedStepIsPrecise : Obligations.FailedStepIsPrecise := by
  intro s t e hstep ht
  rw [step_eq_raised_of_failed hstep ht]
  exact raisesOn_raised s e

/-! ## The word a diagnostic records (R221, R222) -/

/-- The word the error records, if its kind records an instruction word (1, 2, 3 and 8 of R221), is
w. -/
def Err.RecordsOnly (w : Word) : Err → Prop
  | .unknownOpcode v | .invalidInstruction v | .unhandledOpcode v | .divideFault v => v = w
  | .illegalSyscall _ | .invalidRead _ | .invalidWrite _ | .misalignedFetch _
  | .unsetRegister _ => True

/-- r, an answer from s, is a next state, and each diagnostic it appended to OUT records no other
word than w. -/
def DiagnosesOnly (w : Word) (s : State) (r : Result) : Prop :=
  ∃ t events, r = .next t ∧ t.out = s.out ++ events ∧ ∀ e, .diag e ∈ events → e.RecordsOnly w

namespace DiagnosesOnly

variable {w : Word} {s : State} {rd rs1 rs2 : RegIdx}

/-! ### Next states -/

theorem next_of_out_eq {t : State} (h : t.out = s.out) : DiagnosesOnly w s (.next t) :=
  ⟨t, [], rfl, by simp [h], nofun⟩

theorem next_of_diag {t : State} {e : Err} (h : t.out = s.out ++ [.diag e])
    (he : e.RecordsOnly w) : DiagnosesOnly w s (.next t) :=
  ⟨t, [.diag e], rfl, h, by simpa using he⟩

theorem next_of_console {t : State} {bytes : List Byte} (h : t.out = s.out ++ bytes.map .console) :
    DiagnosesOnly w s (.next t) := ⟨t, bytes.map .console, rfl, h, by simp⟩

theorem raised {e : Err} (he : e.RecordsOnly w) : DiagnosesOnly w s (s.raised e) :=
  next_of_diag (State.raise_out s e) he

theorem writeReg_advance (v : Word) : DiagnosesOnly w s (.next (s.writeReg rd v).advance) :=
  next_of_out_eq (State.writeReg_out s rd v)

/-! ### The operations -/

theorem ite {c : Prop} [Decidable c] {r₁ r₂ : Result} (h₁ : DiagnosesOnly w s r₁)
    (h₂ : DiagnosesOnly w s r₂) : DiagnosesOnly w s (if c then r₁ else r₂) :=
  iteInduction (fun _ => h₁) fun _ => h₂

theorem withReg {i : RegIdx} {k : Word → Result} (h : ∀ v, DiagnosesOnly w s (k v)) :
    DiagnosesOnly w s (withReg s i k) := by
  cases hr : s.reg i with
  | unset =>
    rw [withReg_of_unset k hr]
    exact raised trivial
  | val v =>
    rw [withReg_of_val k hr]
    exact h v

theorem withLoad {a : Word} {n : Nat} {k : Word → Result} (h : ∀ v, DiagnosesOnly w s (k v)) :
    DiagnosesOnly w s (withLoad s a n k) := ite (h _) (raised trivial)

theorem withStore {a : Word} {n : Nat} {v : Word} {k : State → Result}
    (h : ∀ m, DiagnosesOnly w s (k { s with mem := m })) :
    DiagnosesOnly w s (withStore s a n v k) := ite (h _) (raised trivial)

/-! ### The handlers -/

theorem registerOp {f : Word → Word → Word} : DiagnosesOnly w s (registerOp s rd rs1 rs2 f) :=
  withReg fun _ => withReg fun _ => writeReg_advance _

/-- DIV and REM record the word they are given (R113, R114). -/
theorem divideOp {f corner : Word → Word → Word} :
    DiagnosesOnly w s (divideOp s w rd rs1 rs2 f corner) := by
  refine withReg fun a => withReg fun b => ite ?_ (writeReg_advance _)
  cases s.params.divCorner with
  | fault => exact raised rfl
  | riscv => exact writeReg_advance _

theorem execLsgt {f3 : BitVec 3} {f7 : BitVec 7} :
    DiagnosesOnly w s (execLsgt rd rs1 rs2 f3 f7 s) :=
  withReg fun _ => withReg fun _ => withLoad fun _ => ite (writeReg_advance _) (next_of_out_eq rfl)

theorem immediateOp {f : Word → Word} : DiagnosesOnly w s (immediateOp s rd rs1 f) :=
  withReg fun _ => writeReg_advance _

/-- OPIMM-INVALID records its own word, reported or raised (R140). -/
theorem execOpimmInvalid {imm : BitVec 12} :
    DiagnosesOnly (encode (.opimmInvalid rd rs1 imm)) s (execOpimmInvalid rd rs1 imm s) := by
  cases hp : s.params.opimmInvalid with
  | goOn =>
    rw [execOpimmInvalid_goOn hp]
    exact next_of_diag (State.writeReg_out (s.report _) rd s.drawn) rfl
  | fatal =>
    rw [execOpimmInvalid_fatal hp]
    exact raised rfl

theorem loadOp {imm : BitVec 12} {n : Nat} {extend : Word → Word} :
    DiagnosesOnly w s (loadOp s rd rs1 imm n extend) :=
  withReg fun _ => withLoad fun _ => writeReg_advance _

theorem storeOp {hi : BitVec 7} {lo : BitVec 5} {n : Nat} :
    DiagnosesOnly w s (storeOp s rs1 rs2 hi lo n) :=
  withReg fun _ => withReg fun _ => withStore fun _ => next_of_out_eq rfl

theorem branchOp {hi : BitVec 7} {lo : BitVec 5} {taken : Word → Word → Bool} :
    DiagnosesOnly w s (branchOp s rs1 rs2 hi lo taken) :=
  withReg fun _ => withReg fun _ => ite (next_of_out_eq rfl) (next_of_out_eq rfl)

theorem execEcall {f3 : BitVec 3} {imm : BitVec 12} :
    DiagnosesOnly w s (execEcall rd rs1 f3 imm s) :=
  withReg fun _ => ite (withReg fun _ => next_of_console rfl) <|
    ite (withReg fun _ => next_of_console rfl) <| ite (next_of_console rfl) <|
    ite (withReg fun _ => next_of_console rfl) (raised trivial)

/-- An instruction's diagnostics record no other word than its own. -/
theorem exec {i : Instr} : DiagnosesOnly (encode i) s (exec i s) := by
  cases i with
  | add | sub | sll | slt | xor | srl | sra | or | and | mul | mulh => exact registerOp
  | div | rem => exact divideOp
  | lsgt rd rs1 rs2 f3 f7 => exact execLsgt (f3 := f3) (f7 := f7)
  | addi | slli | slti | xori | srli | srai | ori | andi => exact immediateOp
  | opimmInvalid => exact execOpimmInvalid
  | lb | lh | lw => exact loadOp
  | sb | sh | sw => exact storeOp
  | beq | bne => exact branchOp
  | jal rd => exact next_of_out_eq (State.writeReg_out s rd _)
  | jalrUnhandled | auipcUnhandled => exact raised rfl
  | lui => exact writeReg_advance _
  | ecall rd rs1 f3 imm => exact execEcall (rd := rd) (rs1 := rs1) (f3 := f3) (imm := imm)

end DiagnosesOnly

/-! ### Rejected words and the step -/

/-- The decoder rejects w with an error that records w (R70, R115). -/
theorem rejectErr_recordsOnly_of_decode_error {strict : Bool} {w : Word} {r : Reject}
    (h : decode strict w = .error r) : (rejectErr r).RecordsOnly w := by
  by_cases hmem : opcodeOf w ∈ recognisedOpcodes
  · rw [RejectsAsInvalid.decode hmem r h]
    rfl
  · rw [decode_eq_unknownOpcode_iff.2 hmem] at h
    cases h
    rfl

theorem fetchDecode_of_decode_error {s : State} {w : Word} {r : Reject} (hf : fetch s = .ok w)
    (hd : decode s.params.strictFunct7 w = .error r) : fetchDecode s = .error (rejectErr r) := by
  simp only [fetchDecode, hf, hd]

/-- A step that fetched w raises the rejection of w or executes the instruction whose word is w. -/
theorem diagnosesOnly_step_of_fetch {s : State} {w : Word} (hr : s.status = .running)
    (hf : fetch s = .ok w) : DiagnosesOnly w s (step s) := by
  cases hd : decode s.params.strictFunct7 w with
  | error r =>
    rw [step_of_fetchDecode_error hr (fetchDecode_of_decode_error hf hd)]
    exact .raised (rejectErr_recordsOnly_of_decode_error hd)
  | ok i =>
    rw [step_of_fetchDecode_ok hr (fetchDecode_of_fetch_ok hf hd), ← EncodesBackTo.decode i hd]
    exact .exec

/-- Settles O16: OUT before and after the step gives the events it appended, and each diagnostic
among them records no other word than the fetched one. -/
theorem diagnosticRecordsFetchedWord : Obligations.DiagnosticRecordsFetchedWord := by
  intro s t w v e hf hstep hout he
  obtain ⟨hr, -⟩ := step_next hstep
  obtain ⟨t', events, ht', hevents, hrecords⟩ := diagnosesOnly_step_of_fetch hr hf
  cases hstep.symm.trans ht'
  have hmem : .diag e ∈ events := by
    rw [← List.append_cancel_left (hout.symm.trans hevents)]
    exact List.mem_singleton_self _
  have hword : e.RecordsOnly w := hrecords e hmem
  obtain rfl | rfl | rfl | rfl := he <;> exact hword

end Sys2Proof.Machine
